-- ==== Sys2Proof/Word.lean ====
section
/-! DEFINITION. The bit-vector types of B32X, one per width the spec names (00_scope.md rules R5 to R8): a byte, a
character code, a 5-bit field, a 40-bit group, a 10-bit command word, a 69-bit response word. -/

namespace Sys2Proof

/-- A plaintext item, `BYTE_W` = 8 bits (00_scope.md R5). -/
abbrev Byte := BitVec 8

/-- A character code on a port, `CHAR_W` = 8 bits (00_scope.md R6, decision D1). -/
abbrev CharCode := BitVec 8

/-- A field, `FIELD_W` = 5 bits (00_scope.md R5). -/
abbrev Field := BitVec 5

/-- A group value, `GROUP_BITS` = 40 bits (00_scope.md R5, 30_encoding.md R63). -/
abbrev Group := BitVec 40

/-- A command word, `CMD_W` = 10 bits (30_encoding.md R70, decision D8). -/
abbrev Command := BitVec 10

/-- A response word, `RSP_W` = 69 bits (30_encoding.md R73, decision D8). -/
abbrev ResponseWord := BitVec 69

end Sys2Proof
end

