-- ==== Sys2Proof/Syntax.lean ====
section
/-! DEFINITION. The command set (spec/opcode_table.json, 30_encoding.md R70 and R72): one constructor per row. Then the
lines of the assembler that the spec writes programs in (30_encoding.md R78, R79). -/

namespace Sys2Proof

/-- The four commands. Each carries the whole field `D` of its word, the END commands too: there the block ignores it
(30_encoding.md R75), but it is part of the word, so that no bit of a word is lost in decoding. -/
inductive Instr where
  /-- `ENC.PUSH D` (42 R113): `d` is the byte to encode. -/
  | encPush (d : Byte)
  /-- `ENC.END` (42 R115): `d` is ignored (R75). -/
  | encEnd (d : Byte)
  /-- `DEC.PUSH D` (43 R133): `d` is the character code to decode. -/
  | decPush (d : CharCode)
  /-- `DEC.END` (43 R135): `d` is ignored (R75). -/
  | decEnd (d : Byte)
  deriving DecidableEq, Repr

/-- Whether a command is for the ENC unit (`U` = 0) or the DEC unit (`U` = 1) (R70). -/
inductive Which where
  | enc
  | dec
  deriving DecidableEq, Repr

/-- The operand of a `DEC.PUSH` line (R78): a number, or a quoted character. The number is a value: R78 writes it
`0x00..0xFF`, and the text reader accepts decimal for it too (DESIGN CHOICE, assumption log 6). -/
inductive CharLiteral where
  | number (n : Nat)
  | quoted (c : Char)
  deriving DecidableEq, Repr

/-- A line of a program as R78 and R79 write it: a command, or one of the two pseudo-instructions. Numbers are as
written; WellFormed.lean says which lines are legal. -/
inductive AsmLine where
  /-- `ENC.PUSH <byte>`. -/
  | encPush (b : Nat)
  /-- `ENC.END`. -/
  | encEnd
  /-- `DEC.PUSH <char>`. -/
  | decPush (c : CharLiteral)
  /-- `DEC.END`. -/
  | decEnd
  /-- `ENCODE b0 b1 ...` (R79). -/
  | encode (bs : List Nat)
  /-- `DECODE "c0c1..."` (R79). -/
  | decode (cs : List Char)
  deriving DecidableEq, Repr

end Sys2Proof
end

