-- ==== Sys2Proof/WellFormed.lean ====
section
/-! DEFINITION. Which terms of the syntax are legal. A command has no illegal form: every word decodes and every value
of `D` is legal (30_encoding.md R75), so `Instr` needs no check, only the mark of the assembler's own form. A line of the
assembler has legal and illegal operands (R78). -/

namespace Sys2Proof

/-- The form in which the assembler emits a command: `D` = 0 for END (R75, R78). Every other form is a legal command
with the same effect; this is no condition on what the block executes. -/
def Instr.canonical : Instr → Bool
  | .encPush _ => true
  | .encEnd d => d == 0
  | .decPush _ => true
  | .decEnd d => d == 0

/-- A byte as R78 writes it: 0x00..0xFF. -/
def byteLiteralOk (n : Nat) : Bool := decide (n < 256)

/-- A printable ASCII character (R78): space to tilde. -/
def printable (c : Char) : Bool := decide (0x20 ≤ c.toNat) && decide (c.toNat ≤ 0x7E)

/-- The operand of a `DEC.PUSH` line (R78). -/
def CharLiteral.wellFormed : CharLiteral → Bool
  | .number n => byteLiteralOk n
  | .quoted c => printable c

/-- A legal line of a program (R78, R79). -/
def AsmLine.wellFormed : AsmLine → Bool
  | .encPush b => byteLiteralOk b
  | .encEnd => true
  | .decPush c => c.wellFormed
  | .decEnd => true
  | .encode bs => bs.all byteLiteralOk
  | .decode cs => cs.all printable

end Sys2Proof
end

