-- ==== Sys2Proof/Decode.lean ====
section
/-! DEFINITION. Command words: the decoder, total on every 10-bit word (30_encoding.md R72, R75), its form on any number
(a number that is no 10-bit word is rejected by name), and the encoder, written from the same table. -/

namespace Sys2Proof

/-- The word of fields `U`, `E`, `D` (R70). -/
def commandWord (u e : BitVec 1) (d : BitVec 8) : Command := u ++ e ++ d

/-- Field `U` = `CMD[9]`: 0 = ENC, 1 = DEC (R70). -/
def fieldU (w : Command) : BitVec 1 := w.extractLsb' 9 1

/-- Field `E` = `CMD[8]`: 0 = PUSH, 1 = END (R70). -/
def fieldE (w : Command) : BitVec 1 := w.extractLsb' 8 1

/-- Field `D` = `CMD[7:0]` (R70, R77: used as it stands). -/
def fieldD (w : Command) : BitVec 8 := w.extractLsb' 0 8

/-- The opcode map (R72): the pair `U`, `E` names the command; every word is exactly one of the four. -/
def decode (w : Command) : Instr :=
  if fieldU w = 0 then
    if fieldE w = 0 then .encPush (fieldD w) else .encEnd (fieldD w)
  else
    if fieldE w = 0 then .decPush (fieldD w) else .decEnd (fieldD w)

/-- Why a number is no command word. -/
inductive DecodeError where
  /-- It has a bit above bit 9: no such word can stand on the 10-bit command port (R70). -/
  | widerThanCommand
  deriving DecidableEq, Repr

/-- The decoder on any number: a number of more than 10 bits is rejected by name. -/
def decodeNat (w : Nat) : Except DecodeError Instr :=
  if w < 1024 then .ok (decode (BitVec.ofNat 10 w)) else .error .widerThanCommand

/-- The command word of an instruction (R70, R72). -/
def encode : Instr → Command
  | .encPush d => commandWord 0 0 d
  | .encEnd d => commandWord 0 1 d
  | .decPush d => commandWord 1 0 d
  | .decEnd d => commandWord 1 1 d

/-- The 10-bit command word that the low `nbits` bits of `w` are, if they are one. The word is presented whole, as a
parallel value (20_memory.md R41, R45), so there is no order of bytes to choose. -/
def tableWord (nbits w : Nat) : Option Command :=
  if w % 2 ^ nbits < 1024 then some (BitVec.ofNat 10 (w % 2 ^ nbits)) else none

/-- What the decoder reads from a word numbered as spec/opcode_table.json numbers it. -/
def decodeTableWord (nbits w : Nat) : Option Instr :=
  match decodeNat (w % 2 ^ nbits) with
  | .ok i => some i
  | .error _ => none

/-- The unit a command is for: its bit `U` (R70). -/
def Instr.unit : Instr → Which
  | .encPush _ => .enc
  | .encEnd _ => .enc
  | .decPush _ => .dec
  | .decEnd _ => .dec

/-- Whether a command is for the ENC unit. -/
def Instr.isEnc (i : Instr) : Bool := i.unit == .enc

/-- Whether a command is for the DEC unit. -/
def Instr.isDec (i : Instr) : Bool := i.unit == .dec

end Sys2Proof
end

