-- ==== Sys2Proof/Config.lean ====
section
/-! DEFINITION. The constants of the block that the spec fixes by name (00_scope.md R5 and R6): widths and counts.
The three TABLES among the parameters (the alphabet with its character codes, ENC_DROP, DEC_DROP; 93 U1 and U7) are
configuration too: they carry the names `Config.alphabet`, `Config.code`, `Config.encDrop`, `Config.decDrop` and stand in
Sys2Proof/Machine/Tables.lean. The spec leaves no value free (93 Part 1: nothing is treated as any value), so no
constant here is opaque. -/

namespace Sys2Proof.Config

/-- `FIELD_W`: width of a field in bits (R5). -/
def fieldW : Nat := 5

/-- `NSYM`: number of alphabet symbols (R5). -/
def nSym : Nat := 32

/-- `GROUP_BYTES`: bytes in a full group (R5). -/
def groupBytes : Nat := 5

/-- `GROUP_CHARS`: characters in a full group (R5). -/
def groupChars : Nat := 8

/-- `GROUP_BITS`: bits in a full group (R5). -/
def groupBits : Nat := 40

/-- `BYTE_W`: width of a plaintext item (R5). -/
def byteW : Nat := 8

/-- `CHAR_W`: width of a character code on the ports (R6, decision D1). -/
def charW : Nat := 8

/-- `CMD_W`: width of a command word (R6, decision D8). -/
def cmdW : Nat := 10

/-- `RSP_W`: width of a response word (R6, decision D8). -/
def rspW : Nat := 69

end Sys2Proof.Config
end

