-- ==== Sys2Proof/Machine/Tables.lean ====
section
/-! DEFINITION. The constant tables of the block (30_encoding.md R60 to R62, R66, R67), as named configuration (93 U1, U7),
and the two ROMs made of them (10_state.md R32). No command writes them (20 R50). -/

namespace Sys2Proof

/-- `ALPHABET` (R60): index to symbol. -/
def Config.alphabet : List Char :=
  ['A', 'B', 'C', 'D', 'E', 'F', 'G', 'H', 'J', 'K', 'L', 'M', 'N', 'P', 'Q', 'R',
   'S', 'T', 'U', 'V', 'W', 'X', 'Y', 'Z', '2', '3', '4', '5', '6', '7', '8', '9']

/-- `code` (R61, decision D1): the 7-bit ASCII code of a character in `CHAR_W` = 8 bits. -/
def Config.code (c : Char) : CharCode := BitVec.ofNat 8 c.toNat

/-- `ENC_DROP` (R66): characters dropped from the tail, by `len mod 5`. The entry 5 at 2 stands as written
(90_conflicts.md C1). -/
def Config.encDrop : Fin 5 → Nat
  | 0 => 0
  | 1 => 6
  | 2 => 5
  | 3 => 3
  | 4 => 1

/-- `DEC_DROP` (R67): bytes dropped from the tail, by `L mod 8`; `none` is "invalid, fails with InvalidLength". -/
def Config.decDrop : Fin 8 → Option Nat
  | 0 => some 0
  | 1 => none
  | 2 => some 4
  | 3 => some 3
  | 4 => none
  | 5 => some 2
  | 6 => none
  | 7 => some 1

namespace Machine

/-- `SYMROM[i] = code(ALPHABET[i])` (10_state.md R32). -/
def symrom (i : Field) : CharCode := Config.code (Config.alphabet.getD i.toNat 'A')

/-- The recognised codes (R62), one row per range: first code, last code, value of the first. -/
def valromRanges : List (Nat × Nat × Nat) :=
  [(0x32, 0x39, 24), (0x41, 0x48, 0), (0x4A, 0x4E, 8), (0x50, 0x5A, 13),
   (0x61, 0x68, 0), (0x6A, 0x6E, 8), (0x70, 0x7A, 13)]

/-- `VALROM[c]` (10_state.md R32): the hit bit and the value; `(0, 0)` for an unrecognised code. -/
def valrom (c : CharCode) : Bool × Field :=
  match valromRanges.find? (fun r => decide (r.1 ≤ c.toNat) && decide (c.toNat ≤ r.2.1)) with
  | some r => (true, BitVec.ofNat 5 (c.toNat - r.1 + r.2.2))
  | none => (false, 0)

end Machine

end Sys2Proof
end

