-- ==== Sys2Proof/Machine/Flags.lean ====
section
/-! DEFINITION. The one condition the block reports (10_state.md R29: there are no flags and no condition codes): the
`ERR` bit of the response to a `DEC.END`. -/

namespace Sys2Proof.Machine

/-- `DCNT` at a `DEC.END` means InvalidLength (60 R151): `DEC_DROP` has no entry there, that is 1, 4 or 6 (30 R67). -/
def invalidLength (c : Fin 8) : Bool := (Config.decDrop c).isNone

end Sys2Proof.Machine
end

