-- ==== Sys2Proof/Machine/SymbolTable.lean ====
section
/-! DEFINITION. The symbol-table encoder and the lenient symbol-table decoder (41_symbol_table.md). -/

namespace Sys2Proof.Machine

/-- `SYM(f) = SYMROM[f]` (R100). -/
def sym (f : Field) : CharCode := symrom f

/-- The value of a recognised code (R105): `VALROM` read as an option. -/
def val? (c : CharCode) : Option Field := if (valrom c).1 then some (valrom c).2 else none

/-- `VAL(c)` (R102): the value half of `VALROM[c]`; 0 for an unrecognised code, without any error (R104). -/
def val (c : CharCode) : Field := (valrom c).2

/-- `upper` (R103): changes the 26 lower-case ASCII letters only. -/
def upper (c : CharCode) : CharCode :=
  if 0x61 ≤ c.toNat ∧ c.toNat ≤ 0x7A then c - 0x20 else c

/-- `lower` (R103): changes the 26 upper-case ASCII letters only. -/
def lower (c : CharCode) : CharCode :=
  if 0x41 ≤ c.toNat ∧ c.toNat ≤ 0x5A then c + 0x20 else c

/-- The recognised characters (30 R62): the 56 codes with a hit. -/
def recognised (c : CharCode) : Bool := (valrom c).1

/-- The 32 codes of the alphabet (30 R61). -/
def isSymbol (c : CharCode) : Bool := Config.alphabet.any (fun a => Config.code a == c)

end Sys2Proof.Machine
end

