-- ==== Sys2Proof/Machine/Operands.lean ====
section
/-! DEFINITION. The operand forms (30_encoding.md R77): there are no immediates to assemble, no register operands and no
addressing modes; `D` is used as it stands, by `ENC.PUSH` as a byte and by `DEC.PUSH` as the index into `VALROM`. -/

namespace Sys2Proof.Machine

/-- What `ENC.PUSH D` puts in a byte slot: `D` itself (R77). -/
def encOperand (d : Byte) : Byte := d

/-- What `DEC.PUSH D` puts in a field slot: `VAL(D)` (R77). -/
def decOperand (d : CharCode) : Field := val d

end Sys2Proof.Machine
end

