-- ==== Sys2Proof/Machine/FieldExtract.lean ====
section
/-! DEFINITION. The field extractor and the field packer (40_field_extract.md): slices of a group, `JOIN5`, `XTR5`, `PCK5`,
`SPLIT5`. Order within a group is big-endian in both directions (20 R40, 30 R63). -/

namespace Sys2Proof.Machine

/-- Byte `j` of a group: `G[39-8j : 32-8j]` (30 R63). -/
def byteOf (g : Group) (j : Nat) : Byte := g.extractLsb' (32 - 8 * j) 8

/-- Field `k` of a group: `G[39-5k : 35-5k]` (30 R63). -/
def fieldOf (g : Group) (k : Nat) : Field := g.extractLsb' (35 - 5 * k) 5

/-- `JOIN5` (R90): five bytes to a group value, the first most significant. -/
def join5 (b0 b1 b2 b3 b4 : Byte) : Group := b0 ++ b1 ++ b2 ++ b3 ++ b4

/-- `XTR5` (R91): a group value to its eight fields, most significant first. -/
def xtr5 (g : Group) : List Field :=
  [fieldOf g 0, fieldOf g 1, fieldOf g 2, fieldOf g 3, fieldOf g 4, fieldOf g 5, fieldOf g 6, fieldOf g 7]

/-- `PCK5` (R92): eight fields to a group value, the first most significant. -/
def pck5 (f0 f1 f2 f3 f4 f5 f6 f7 : Field) : Group := f0 ++ f1 ++ f2 ++ f3 ++ f4 ++ f5 ++ f6 ++ f7

/-- `SPLIT5` (R93): a group value to its five bytes, most significant first. -/
def split5 (g : Group) : List Byte :=
  [byteOf g 0, byteOf g 1, byteOf g 2, byteOf g 3, byteOf g 4]

/-- `JOIN5` of a sequence `g`: `JOIN5(g[0], ..., g[4])` (42 R110). -/
def join5Seq (g : List Byte) : Group :=
  join5 (g.getD 0 0) (g.getD 1 0) (g.getD 2 0) (g.getD 3 0) (g.getD 4 0)

/-- `PCK5` of a sequence `v`: `PCK5(v[0], ..., v[7])` (43 R130). -/
def pck5Seq (v : List Field) : Group :=
  pck5 (v.getD 0 0) (v.getD 1 0) (v.getD 2 0) (v.getD 3 0) (v.getD 4 0) (v.getD 5 0) (v.getD 6 0) (v.getD 7 0)

/-- `zeros(n)` (00_scope.md R8): `n` items of value 0. -/
def zeros (w n : Nat) : List (BitVec w) := List.replicate n 0

/-- `chunks(n, s)` with at most `fuel` chunks. -/
def chunksFuel {α : Type} (n : Nat) : Nat → List α → List (List α)
  | 0, _ => []
  | _ + 1, [] => []
  | fuel + 1, s@(_ :: _) => s.take n :: chunksFuel n fuel (s.drop n)

/-- `chunks(n, s)` (00_scope.md R8): consecutive sequences of `n` items, in order; the last is shorter where `n` does not
divide the length. -/
def chunks {α : Type} (n : Nat) (s : List α) : List (List α) := chunksFuel n s.length s

end Sys2Proof.Machine
end

