-- ==== Sys2Proof/Machine/State.lean ====
section
/-! DEFINITION. What the block holds (10_state.md R20 to R24), the two ports the model adds around it, the reasons a
step can stop, and the state after reset. -/

namespace Sys2Proof.Machine

/-- One response (30_encoding.md R73, R74): its three kinds of field. `Response.word` (Machine/Ops.lean) lays them out
as the 69-bit word. A response is the answer to one command and no register of the block (10_state.md R29, R33). -/
structure Response where
  /-- `ERR`: the command raised InvalidLength. -/
  err : Bool
  /-- `N`: number of valid lanes. -/
  n : BitVec 4
  /-- Lanes 0 to 7. -/
  lanes : Vector Byte 8
  deriving DecidableEq, Repr

/-- One item of the block's input sequence (70 R170): a command word on the command port, or the reset event. -/
inductive Input where
  | command (w : Command)
  | reset
  deriving DecidableEq, Repr

/-- Reasons the machine stops with a fault: NONE. Every command is executed in every state (60 R152, 30 R75), the one
exception InvalidLength is an answer after which the block goes on (60 R155), and the block never halts on its own (70
R174). Nobody raises a fault; safe, since nothing is hidden behind one. -/
inductive Fault
  deriving DecidableEq, Repr

/-- Reasons the model has no meaning for a command. -/
inductive Refusal where
  /-- A command of the table whose arm has no meaning yet, by its mnemonic. Raised by no arm of this model: all four have
  their meaning. Safe. -/
  | notModelled (mnemonic : String)
  deriving DecidableEq, Repr

/-- The four registers of the block (10_state.md R20: the whole architectural state), then the two ports as the MODEL's
own fields (assumption log 1 and 2): what the host has yet to present, and what the block has answered. -/
structure State where
  /-- `EACC`, 40 bits: the bytes of the current partial encode group, left-aligned (R21). -/
  eacc : Group
  /-- `ECNT`, 3 bits, 0 to 4: bytes pushed of the current encode group (R22, which allows this type; 93 U14). -/
  ecnt : Fin 5
  /-- `DACC`, 40 bits: the 5-bit values of the current partial decode group, left-aligned (R23). -/
  dacc : Group
  /-- `DCNT`, 3 bits, 0 to 7: characters pushed of the current decode group (R24, which allows this type). -/
  dcnt : Fin 8
  /-- The host's input sequence still to come, next first (70 R170, R174; 20 R47). The model's own field: an input, not
  state of the block (10_state.md R35). -/
  inputs : List Input
  /-- The responses given so far, oldest first (20 R42, R47). The model's own field: what the host has read from the
  response port; no command reads it. -/
  responses : List Response
  deriving DecidableEq, Repr

/-- After reset (10_state.md R34, 70 R171): both units idle. The two ports, which the spec gives no reset value, are empty
(assumption log 1 and 2, DESIGN CHOICE). -/
def State.reset : State :=
  { eacc := 0, ecnt := 0, dacc := 0, dcnt := 0, inputs := [], responses := [] }

end Sys2Proof.Machine
end

