-- ==== Sys2Proof/Machine/Ops.lean ====
section
/-! DEFINITION. The shared operations: writing a slot of an accumulator, zeroing its tail, answering a command, raising
InvalidLength, the reset event, and the two ports. The block has no memory, no register file, no saved state and no
return from an exception (10_state.md R31, R32; 60 R155, R157), so there are no operations for them. -/

namespace Sys2Proof.Machine

/-- `g` with the `w` bits from bit `lo` up replaced by `v`. -/
def replaceSlice {w : Nat} (g : Group) (lo : Nat) (v : BitVec w) : Group :=
  (g &&& ~~~((BitVec.allOnes w).setWidth 40 <<< lo)) ||| (v.setWidth 40 <<< lo)

/-- `g` with bits `[n-1 : 0]` replaced by zeros. -/
def zeroLow (g : Group) (n : Nat) : Group := (g >>> n) <<< n

/-- `EACC with bits [39-8c : 32-8c] replaced by D` (42 R113). -/
def putByte (g : Group) (c : Fin 5) (d : Byte) : Group := replaceSlice g (32 - 8 * c.val) d

/-- `DACC with bits [39-5c : 35-5c] replaced by VAL(D)` (43 R133). -/
def putField (g : Group) (c : Fin 8) (f : Field) : Group := replaceSlice g (35 - 5 * c.val) f

/-- `EACC with bits [39-8c : 0] replaced by zeros` (42 R115): zero padding of byte slots `c` to 4. -/
def padBytes (g : Group) (c : Fin 5) : Group := zeroLow g (40 - 8 * c.val)

/-- `DACC with bits [39-5c : 0] replaced by zeros` (43 R135): zero padding of field slots `c` to 7. -/
def padFields (g : Group) (c : Fin 8) : Group := zeroLow g (40 - 5 * c.val)

/-- `respond(err, items)` (00_scope.md R9): `ERR`, `N` = the number of items, lane `k` = item `k`, zero beyond. -/
def respond (err : Bool) (items : List Byte) : Response :=
  { err := err
    n := BitVec.ofNat 4 items.length
    lanes := #v[items.getD 0 0, items.getD 1 0, items.getD 2 0, items.getD 3 0,
                items.getD 4 0, items.getD 5 0, items.getD 6 0, items.getD 7 0] }

/-- The 69-bit word of a response (30 R73): `ERR`, `N`, lane 0 to lane 7, most significant first. -/
def Response.word (r : Response) : ResponseWord :=
  BitVec.ofBool r.err ++ r.n ++ r.lanes[0] ++ r.lanes[1] ++ r.lanes[2] ++ r.lanes[3] ++ r.lanes[4] ++ r.lanes[5]
    ++ r.lanes[6] ++ r.lanes[7]

/-- The fields of a 69-bit response word (30 R73), as the host reads them. -/
def Response.ofWord (w : ResponseWord) : Response :=
  { err := w.getLsbD 68
    n := w.extractLsb' 64 4
    lanes := #v[w.extractLsb' 56 8, w.extractLsb' 48 8, w.extractLsb' 40 8, w.extractLsb' 32 8,
                w.extractLsb' 24 8, w.extractLsb' 16 8, w.extractLsb' 8 8, w.extractLsb' 0 8] }

/-- The valid lanes `0 .. N-1` of a response, in lane order (30 R74, 20 R42; 70 R181: `N` decides, never the contents). -/
def Response.items (r : Response) : List Byte := r.lanes.toList.take r.n.toNat

/-- Give the command's one response. -/
def answer (err : Bool) (items : List Byte) (s : State) : State :=
  { s with responses := s.responses ++ [respond err items] }

/-- `EACC <- g`, `ECNT <- c`, together (00_scope.md R9). -/
def setEnc (g : Group) (c : Fin 5) (s : State) : State := { s with eacc := g, ecnt := c }

/-- `DACC <- g`, `DCNT <- c`, together (00_scope.md R9). -/
def setDec (g : Group) (c : Fin 8) (s : State) : State := { s with dacc := g, dcnt := c }

/-- Taking the one exception (60 R150, R155): the raising command clears the DEC unit and answers `ERR` = 1, `N` = 0.
Nothing is saved, no mode changes, control goes nowhere; there is no return from it (60 R157). -/
def raiseInvalidLength (s : State) : State := answer true [] (setDec 0 0 s)

/-- The reset event (70 R170): all four registers to 0, no response; the responses already given stand (R172). -/
def resetEvent (s : State) : State := setDec 0 0 (setEnc 0 0 s)

/-- What a step does when the host presents nothing: the registers stay as they are (60 R165). -/
def idleStep (s : State) : State := s

/-- The next item of the input sequence and the state with that item taken (20 R47: in the order presented). -/
def takeInput (s : State) : Option (Input × State) :=
  match s.inputs with
  | [] => none
  | i :: rest => some (i, { s with inputs := rest })

/-- The host puts one more item before all it has still to present. -/
def present (i : Input) (s : State) : State := { s with inputs := i :: s.inputs }

end Sys2Proof.Machine
end

