-- ==== Sys2Proof/Machine/DecodePipeline.lean ====
section
/-! DEFINITION. The decode pipeline (43_decode_pipeline.md): the functions of layer F, `decode` and `DECG`, and the two
commands of the DEC unit. -/

namespace Sys2Proof

open Machine

/-- The result of decoding a text (R130): bytes, or the error InvalidLength, never both (R140). -/
inductive DecodeResult where
  | bytes (bs : List Byte)
  | invalidLength
  deriving DecidableEq, Repr

/-- The bytes of a result: none where it is the error (R140). -/
def decodedBytes : DecodeResult → List Byte
  | .bytes bs => bs
  | .invalidLength => []

/-- `decode(text)` (R130). The length alone decides the error (R136). -/
def Codec.decode (text : List CharCode) : DecodeResult :=
  let l := text.length
  match Config.decDrop (Fin.ofNat 8 l) with
  | none => .invalidLength
  | some drop =>
    let vals := text.map val ++ zeros 5 ((8 - l % 8) % 8)
    let buf := (chunks 8 vals).flatMap (fun v => split5 (pck5Seq v))
    .bytes (buf.take (buf.length - drop))

/-- `DECG(t)` (R131): one group of 1 to 8 characters; `DEC_KEEP[c] = 5 - DEC_DROP[c mod 8]`. -/
def Codec.decg (t : List CharCode) : DecodeResult :=
  match Config.decDrop (Fin.ofNat 8 t.length) with
  | none => .invalidLength
  | some drop => .bytes ((split5 (pck5Seq (t.map val ++ zeros 5 (8 - t.length)))).take (5 - drop))

namespace Machine

/-- `DEC.PUSH D` (R133). An unrecognised `D` pushes the value 0 (41 R104). -/
def execDecPush (d : CharCode) (s : State) : Host.Outcome State Fault Refusal :=
  let g := putField s.dacc s.dcnt (decOperand d)
  if s.dcnt.val < 7 then
    .next (answer false [] (setDec g (s.dcnt + 1) s))
  else
    .next (answer false (split5 g) (setDec 0 0 s))

/-- How many bytes a `DEC.END` at count `c` keeps: `5 - DEC_DROP[c]`; none where the table has no entry (R135, 30 R67). -/
def decKept (c : Fin 8) : Nat := 5 - (Config.decDrop c).getD 5

/-- `DEC.END` (R135); `D` is ignored (30 R75). -/
def execDecEnd (_d : Byte) (s : State) : Host.Outcome State Fault Refusal :=
  let p := padFields s.dacc s.dcnt
  if s.dcnt = 0 then
    .next (answer false [] (setDec 0 0 s))
  else if invalidLength s.dcnt then
    .next (raiseInvalidLength s)
  else
    .next (answer false ((split5 p).take (decKept s.dcnt)) (setDec 0 0 s))

end Machine

end Sys2Proof
end

