-- ==== Sys2Proof/Machine/EncodePipeline.lean ====
section
/-! DEFINITION. The encode pipeline (42_encode_pipeline.md): the functions of layer F, `encode` and `ENCG`, and the two
commands of the ENC unit. -/

namespace Sys2Proof

open Machine

/-- `encode(input)` (R110). Total: no error (R116). -/
def Codec.encode (input : List Byte) : List CharCode :=
  let n := input.length
  let padded := input ++ zeros 8 ((5 - n % 5) % 5)
  let text := (chunks 5 padded).flatMap (fun g => (xtr5 (join5Seq g)).map sym)
  text.take (text.length - Config.encDrop (Fin.ofNat 5 n))

/-- `ENC_KEEP[c] = 8 - ENC_DROP[c mod 5]` for a group of `c` bytes (R111). -/
def Codec.encKeep (c : Nat) : Nat := 8 - Config.encDrop (Fin.ofNat 5 c)

/-- `ENCG(g)` (R111): one group of 1 to 5 bytes. -/
def Codec.encg (g : List Byte) : List CharCode :=
  ((xtr5 (join5Seq (g ++ zeros 8 (5 - g.length)))).map sym).take (Codec.encKeep g.length)

namespace Machine

/-- `ENC.PUSH D` (R113). -/
def execEncPush (d : Byte) (s : State) : Host.Outcome State Fault Refusal :=
  let g := putByte s.eacc s.ecnt (encOperand d)
  if s.ecnt.val < 4 then
    .next (answer false [] (setEnc g (s.ecnt + 1) s))
  else
    .next (answer false ((xtr5 g).map sym) (setEnc 0 0 s))

/-- `ENC.END` (R115); `D` is ignored (30 R75). -/
def execEncEnd (_d : Byte) (s : State) : Host.Outcome State Fault Refusal :=
  let p := padBytes s.eacc s.ecnt
  if s.ecnt = 0 then
    .next (answer false [] (setEnc 0 0 s))
  else
    .next (answer false (((xtr5 p).map sym).take (8 - Config.encDrop s.ecnt)) (setEnc 0 0 s))

end Machine

end Sys2Proof
end

