-- ==== Sys2Proof/Machine/Dispatch.lean ====
section
/-! DEFINITION. One command is one atomic step (20_memory.md R45): each constructor's meaning. -/

namespace Sys2Proof.Machine

def exec (i : Instr) (s : State) : Host.Outcome State Fault Refusal :=
  match i with
  | .encPush d => Sys2Proof.Machine.execEncPush d s
  | .encEnd d => Sys2Proof.Machine.execEncEnd d s
  | .decPush d => Sys2Proof.Machine.execDecPush d s
  | .decEnd d => Sys2Proof.Machine.execDecEnd d s

end Sys2Proof.Machine
end

