-- ==== Sys2Proof/Machine/Step.lean ====
section
/-! DEFINITION. One step of the machine: it takes the next item of the host's input sequence (70 R170), a command word or
the reset event, and gives it its effect, complete before the next is looked at (20 R47). -/

namespace Sys2Proof.Machine

def step (s : State) : Host.Outcome State Fault Refusal :=
  match takeInput s with
  | none => .next (idleStep s)
  | some (.reset, s') => .next (resetEvent s')
  | some (.command w, s') => exec (decode w) s'

/-- The command word `w` presented next on the command port, before anything the host has still to present; a number that
is no 10-bit word cannot stand on the port and changes nothing. -/
def State.withFetchWord (s : State) (nbits w : Nat) : State :=
  match tableWord nbits w with
  | some c => present (.command c) s
  | none => s

end Sys2Proof.Machine
end

