-- ==== Sys2Proof/Machine/Message.lean ====
section
/-! DEFINITION. What a host makes of a command sequence and of its responses: the commands as inputs, the part of a
response sequence that belongs to one unit (20_memory.md R52), the message-level results (20 R42, 30 R79, 43 R140), and the
two pseudo-instructions (30 R79). -/

namespace Sys2Proof.Machine

/-- A command as an item of the input sequence. -/
def toInput (i : Instr) : Input := .command (encode i)

/-- A command sequence executed in order, each command from the state the one before it left (20 R47). -/
def execSeq : List Instr → State → Host.Outcome State Fault Refusal
  | [], s => .next s
  | i :: rest, s =>
    match exec i s with
    | .next t => execSeq rest t
    | .fault f => .fault f
    | .refused r => .refused r

/-- The commands of a sequence that are for unit `u`. -/
def unitCommands (u : Which) (cs : List Instr) : List Instr := cs.filter (fun i => i.unit == u)

/-- The responses to the commands for unit `u`, where `rs` are the responses to `cs`, one for each, in order. -/
def unitResponses (u : Which) (cs : List Instr) (rs : List Response) : List Response :=
  ((cs.zip rs).filter (fun p => p.1.unit == u)).map (fun p => p.2)

/-- The concatenation, in command order, of the valid lanes of each response (20 R42). -/
def lanesOf (rs : List Response) : List Byte := rs.flatMap Response.items

/-- The `ERR` bit of the last response of a message (30 R79). -/
def lastErr (rs : List Response) : Bool :=
  match rs.getLast? with
  | some r => r.err
  | none => false

/-- The result of a decode message as a function of its whole response sequence (43 R140): bytes delivered before an error
are void. -/
def decodeMessage (rs : List Response) : DecodeResult :=
  if lastErr rs then .invalidLength else .bytes (lanesOf rs)

/-- `ENCODE b0 b1 ...` (30 R79). -/
def encodeCommands (b : List Byte) : List Instr := b.map Instr.encPush ++ [.encEnd 0]

/-- `DECODE "c0c1..."` (30 R79). -/
def decodeCommands (t : List CharCode) : List Instr := t.map Instr.decPush ++ [.decEnd 0]

end Sys2Proof.Machine
end

