-- ==== Sys2Proof/Machine/Assembler.lean ====
section
/-! DEFINITION. The notation in which the spec writes programs (30_encoding.md R78, R79): the commands a line stands for,
and the reading of a line and of a program as text. Where R78 leaves the text open (white space, digits of a hexadecimal
number, a quoted semicolon) or says less than the reader accepts (a decimal operand of `DEC.PUSH`) the choice is assumption
log 6. -/

namespace Sys2Proof.Machine

/-- The code of a `DEC.PUSH` operand (R78): a number is itself, a quoted character stands for its code by R61. -/
def literalCode : CharLiteral → CharCode
  | .number n => BitVec.ofNat 8 n
  | .quoted c => Config.code c

/-- The commands a line stands for (R78: `D` = the operand, 0 for END; R79: the two expansions). -/
def lineCommands : AsmLine → List Instr
  | .encPush b => [.encPush (BitVec.ofNat 8 b)]
  | .encEnd => [.encEnd 0]
  | .decPush c => [.decPush (literalCode c)]
  | .decEnd => [.decEnd 0]
  | .encode bs => encodeCommands (bs.map (BitVec.ofNat 8))
  | .decode cs => decodeCommands (cs.map Config.code)

/-- The commands of a legal line. -/
def assembleLine (l : AsmLine) : Option (List Instr) := if l.wellFormed then some (lineCommands l) else none

/-- White space within a line. -/
def isBlank (c : Char) : Bool := c == ' ' || c == '\t' || c == '\r'

/-- A character of a mnemonic or of a number. -/
def isWordChar (c : Char) : Bool := !isBlank c && c != ';'

/-- The text after its leading white space. -/
def skipBlanks (l : List Char) : List Char := l.dropWhile isBlank

/-- Nothing more on the line but white space and a comment. -/
def lineEnds (l : List Char) : Bool :=
  match skipBlanks l with
  | [] => true
  | c :: _ => c == ';'

/-- The words of a line before its comment. -/
def wordsOf (l : List Char) : List (List Char) :=
  ((l.takeWhile (· != ';')).splitOnP isBlank).filter (fun w => !w.isEmpty)

/-- The value of a digit in base 16; in base 10 the caller bounds it. -/
def digitValue (c : Char) : Option Nat :=
  if '0' ≤ c ∧ c ≤ '9' then some (c.toNat - 0x30)
  else if 'A' ≤ c ∧ c ≤ 'F' then some (c.toNat - 0x41 + 10)
  else if 'a' ≤ c ∧ c ≤ 'f' then some (c.toNat - 0x61 + 10)
  else none

/-- The value of a sequence of digits, most significant first, after the value `acc` read so far. -/
def digitsFrom (base : Nat) : Nat → List Char → Option Nat
  | acc, [] => some acc
  | acc, c :: rest =>
    match digitValue c with
    | some d => if d < base then digitsFrom base (acc * base + d) rest else none
    | none => none

/-- A number: `0x` and hexadecimal digits, or decimal digits (R78); at least one digit. -/
def numberOf : List Char → Option Nat
  | [] => none
  | ['0', 'x'] => none
  | '0' :: 'x' :: ds => digitsFrom 16 0 ds
  | ds => digitsFrom 10 0 ds

/-- The one number that the rest of a line holds. -/
def oneNumber (l : List Char) : Option Nat :=
  match wordsOf l with
  | [w] => numberOf w
  | _ => none

/-- The operand of a `DEC.PUSH` line: a quoted character or a number. R78 lists `0x00..0xFF` and the quoted character for
`<char>`, and decimal for `<byte>` only; that a DECIMAL number is read here too, as its value, is the MODEL's choice
(DESIGN CHOICE, assumption log 6). -/
def charOperand (l : List Char) : Option CharLiteral :=
  match skipBlanks l with
  | '\'' :: c :: '\'' :: rest => if lineEnds rest then some (.quoted c) else none
  | _ => (oneNumber l).map CharLiteral.number

/-- The operand of a `DECODE` line: a text between double quotes. -/
def textOperand (l : List Char) : Option (List Char) :=
  match skipBlanks l with
  | '"' :: rest =>
    match rest.dropWhile (· != '"') with
    | _ :: after => if lineEnds after then some (rest.takeWhile (· != '"')) else none
    | [] => none
  | _ => none

/-- A line as text: `none` where it is no line of R78 or R79, `some none` where it holds nothing or a comment only. -/
def parseLine (text : List Char) : Option (Option AsmLine) :=
  let l := skipBlanks text
  let word := l.takeWhile isWordChar
  let rest := l.dropWhile isWordChar
  if lineEnds l then some none
  else if word = "ENC.PUSH".toList then (oneNumber rest).map (fun n => some (.encPush n))
  else if word = "ENC.END".toList then (if lineEnds rest then some (some .encEnd) else none)
  else if word = "DEC.PUSH".toList then (charOperand rest).map (fun c => some (.decPush c))
  else if word = "DEC.END".toList then (if lineEnds rest then some (some .decEnd) else none)
  else if word = "ENCODE".toList then ((wordsOf rest).mapM numberOf).map (fun ns => some (.encode ns))
  else if word = "DECODE".toList then (textOperand rest).map (fun cs => some (.decode cs))
  else none

/-- The commands of a line as text, none for an empty line; `none` where the line is not legal. -/
def assembleText (text : List Char) : Option (List Instr) :=
  match parseLine text with
  | none => none
  | some none => some []
  | some (some l) => assembleLine l

/-- The commands of a program, one command or pseudo-instruction per line (R78). -/
def assembleProgram (text : List Char) : Option (List Instr) :=
  ((text.splitOn '\n').mapM assembleText).map List.flatten

end Sys2Proof.Machine
end

