-- ==== Sys2Proof/Safety.lean ====
section
/-! DEFINITION. The terms in which claims are made: the idle unit, the invariant of the four registers, and what a run of
messages is. The block has no bad state; a safe run is one in which every message starts at an idle unit (10_state.md R27,
R37; 93 U10). -/

namespace Sys2Proof.Machine

/-- The ENC unit is idle (10_state.md R27): its count is 0 and so is its accumulator. -/
abbrev State.encIdle (s : State) : Prop := s.ecnt = 0 ∧ s.eacc = 0

/-- The DEC unit is idle (10_state.md R27). -/
abbrev State.decIdle (s : State) : Prop := s.dcnt = 0 ∧ s.dacc = 0

/-- Every byte slot of `EACC` from `ECNT` on is zero: `EACC[39 - 8*ECNT : 0] = 0` (10_state.md R26). -/
abbrev State.encTailZero (s : State) : Prop := ∀ b, b < 40 - 8 * s.ecnt.val → s.eacc.getLsbD b = false

/-- Every field slot of `DACC` from `DCNT` on is zero: `DACC[39 - 5*DCNT : 0] = 0` (10_state.md R26). -/
abbrev State.decTailZero (s : State) : Prop := ∀ b, b < 40 - 5 * s.dcnt.val → s.dacc.getLsbD b = false

/-- The invariants of the registers (10_state.md R26). -/
abbrev State.Inv (s : State) : Prop := s.ecnt.val ≤ 4 ∧ s.encTailZero ∧ s.decTailZero

/-- Two states hold the same four registers: the whole architectural state (10_state.md R20). -/
abbrev State.sameRegs (s t : State) : Prop :=
  s.eacc = t.eacc ∧ s.ecnt = t.ecnt ∧ s.dacc = t.dacc ∧ s.dcnt = t.dcnt

/-- The host presents the commands `cs`, in order, and then `rest`. -/
abbrev State.presents (s : State) (cs : List Instr) (rest : List Input) : Prop :=
  s.inputs = cs.map toInput ++ rest

end Sys2Proof.Machine
end

