-- ==== Sys2Proof/Certificates/Slice0/Obligations.lean ====
section
/-! DEFINITION. The statements for the provers. Every statement is about every state unless it says otherwise; a word
"spec's own inference" marks a rule that the spec itself derives from others, "decision" a rule of layer M, which the spec
calls its own choice (00_scope.md section 1). That the inputs to come and the responses given are fields of State is the
model's own choice wherever a statement speaks of them (assumption log 1 and 2); so is the step with nothing presented
(log 3), which only NoInputChangesNothing, TheBlockNeverHalts, EveryStepKeepsTheRegisterInvariant and
OnlyOwnCommandsOrResetChangeAUnit reach. -/

open Sys2Proof Sys2Proof.Machine

/-! ### Command words -/

/-- R72: which word is which command; the operand is `CMD[7:0]`. -/
def Obligations.CommandWordsFollowOpcodeMap : Prop :=
  ∀ w : Command,
    (w &&& 0x300 = 0x000 ↔ decode w = .encPush (w.extractLsb' 0 8)) ∧
    (w &&& 0x300 = 0x100 ↔ decode w = .encEnd (w.extractLsb' 0 8)) ∧
    (w &&& 0x300 = 0x200 ↔ decode w = .decPush (w.extractLsb' 0 8)) ∧
    (w &&& 0x300 = 0x300 ↔ decode w = .decEnd (w.extractLsb' 0 8))

/-- 30_encoding.md Part B: no bit of a command word is dropped and no two commands share a word; a number that is no 10-bit
word is refused (the MODEL's own clause, assumption log 7). That an END keeps its ignored bits is the model's choice too (log
8). -/
def Obligations.EveryCommandRoundTripsThroughItsWord : Prop :=
  (∀ i : Instr, decode (encode i) = i) ∧
  (∀ w : Command, encode (decode w) = w) ∧
  (∀ (i : Instr) (nbits : Nat), 10 ≤ nbits → decodeTableWord nbits (encode i).toNat = some i) ∧
  (∀ nbits w : Nat, 1024 ≤ w % 2 ^ nbits → decodeTableWord nbits w = none)

/-- Words of 95_test_vectors.md V-C, written from 30_encoding.md R70: `U`, `E`, `D` bit by bit. -/
def Obligations.SampleWordsDecodeToTheirCommands : Prop :=
  decode 0b0011111111 = .encPush 0xFF ∧ decode 0b0110101011 = .encEnd 0xAB ∧
  decode 0b1001000101 = .decPush 0x45 ∧ decode 0b1100000000 = .decEnd 0x00

/-- R75 (decision D9): every word is executed, the data of an END does not matter, every PUSH is accepted, and the
assembler emits `D` = 0. -/
def Obligations.NoWordIsIllegalAndEndIgnoresItsData : Prop :=
  ∀ (w : Command) (s : State),
    (∃ t, step (present (.command w) s) = .next t) ∧
    (0x100 ≤ w.toNat ∧ w.toNat ≤ 0x1FF →
      (∃ d, decode w = .encEnd d) ∧ step (present (.command w) s) = step (present (.command 0x100) s)) ∧
    (0x300 ≤ w.toNat →
      (∃ d, decode w = .decEnd d) ∧ step (present (.command w) s) = step (present (.command 0x300) s)) ∧
    (∀ c : CharCode, recognised c = false → val c = 0) ∧
    lineCommands .encEnd = [.encEnd 0] ∧ lineCommands .decEnd = [.decEnd 0]

/-! ### Steps and runs -/

/-- A step takes the next command word and runs the command it decodes to; nothing else happens around it. -/
def Obligations.StepRunsTheDecodedCommand : Prop :=
  ∀ (s : State) (rest : List Input),
    (∀ w, s.inputs = .command w :: rest → step s = exec (decode w) { s with inputs := rest }) ∧
    (∀ i, s.inputs = .command (encode i) :: rest → step s = exec i { s with inputs := rest }) ∧
    (∀ i nbits, 10 ≤ nbits → step (s.withFetchWord nbits (encode i).toNat) = exec i s)

/-- R170 and R172 (decision D12): the reset event in any state. -/
def Obligations.ResetEventClearsAllRegisters : Prop :=
  ∀ (s : State) (rest : List Input), s.inputs = .reset :: rest →
    step s = .next { s with eacc := 0, ecnt := 0, dacc := 0, dcnt := 0, inputs := rest }

/-- The MODEL's own clause (assumption log 3): with nothing presented a step changes nothing. It reads 60_exceptions.md section 9,
"A unit that receives no command keeps its registers unchanged for any length of time." -/
def Obligations.NoInputChangesNothing : Prop :=
  ∀ s : State, s.inputs = [] → step s = .next s

/-- R171 (decision D12): the registers after reset. -/
def Obligations.RegistersAreZeroAfterReset : Prop :=
  State.reset.eacc = 0 ∧ State.reset.ecnt = 0 ∧ State.reset.dacc = 0 ∧ State.reset.dcnt = 0

/-- 70_reset_and_hazards.md section 2, "The block never halts on its own": no state faults or refuses, at one step or at many (with nothing presented, by assumption log 3). -/
def Obligations.TheBlockNeverHalts : Prop :=
  ∀ (n : Nat) (s : State), (∃ t : State, step s = .next t) ∧ (∃ t : State, Sys2Proof.core.run n s = .next t)

/-- 20_memory.md section 5: commands take effect in the order presented, each from the state the one before it left. -/
def Obligations.RunsExecuteCommandsInOrder : Prop :=
  ∀ (cs : List Instr) (rest : List Input) (s : State), s.presents cs rest →
    Sys2Proof.core.run cs.length s = execSeq cs { s with inputs := rest }

/-- R172 (decision D12): a reset in the middle of messages loses what is pending, without a response; the responses already
given stand. -/
def Obligations.ResetAbandonsPendingMessages : Prop :=
  ∀ (cs : List Instr) (rest : List Input) (s : State), s.inputs = cs.map toInput ++ .reset :: rest →
    ∃ (t u : State) (rs : List Response),
      execSeq cs { s with inputs := .reset :: rest } = .next u ∧ rs.length = cs.length ∧
      u.responses = s.responses ++ rs ∧
      Sys2Proof.core.run (cs.length + 1) s = .next t ∧
      t = { State.reset with inputs := rest, responses := s.responses ++ rs }

/-! ### The ENC unit -/

/-- R113 (decisions D2, D3, D6): all that `ENC.PUSH` does, at a count below 4 and at 4. -/
def Obligations.EncPushFillsASlotOrAnswersAGroup : Prop :=
  ∀ (d : Byte) (s : State),
    encode (.encPush d) = (0b00#2 ++ d : BitVec 10) ∧
    (s.ecnt.val < 4 → ∃ (g : Group) (c : Fin 5), c.val = s.ecnt.val + 1 ∧
      (∀ j : Fin 5, byteOf g j = if j = s.ecnt then d else byteOf s.eacc j) ∧
      (s.encTailZero → g = s.eacc ||| (d.setWidth 40 <<< (32 - 8 * s.ecnt.val))) ∧
      exec (.encPush d) s =
        .next { s with eacc := g, ecnt := c, responses := s.responses ++ [respond false []] }) ∧
    (s.ecnt = 4 →
      exec (.encPush d) s =
        .next { s with
          eacc := 0
          ecnt := 0
          responses := s.responses ++ [respond false ((xtr5 (s.eacc.extractLsb' 8 32 ++ d)).map sym)] } ∧
      ∀ d' : Byte, execSeq [.encPush d, .encEnd d'] s =
        .next { s with
          eacc := 0
          ecnt := 0
          responses := s.responses ++
            [respond false ((xtr5 (s.eacc.extractLsb' 8 32 ++ d)).map sym), respond false []] }) ∧
    (s.eacc = 0x0001020300 → s.ecnt = 4 →
      exec (.encPush 0x04) s =
        .next { s with
          eacc := 0
          ecnt := 0
          responses := s.responses ++ [respond false [0x41, 0x41, 0x41, 0x53, 0x45, 0x41, 0x32, 0x45]] })

/-- R115 (decisions D2, D3, D6): all that `ENC.END` does. The list is `8 - ENC_DROP[c]` for `c` = 0 to 4. -/
def Obligations.EncEndFlushesThePartialGroup : Prop :=
  ∀ (d : Byte) (s : State),
    encode (.encEnd d) = (0b01#2 ++ d : BitVec 10) ∧
    (s.ecnt = 0 →
      exec (.encEnd d) s =
        .next { s with eacc := 0, ecnt := 0, responses := s.responses ++ [respond false []] }) ∧
    (s.ecnt ≠ 0 → ∃ (p : Group) (cs : List CharCode),
      (∀ j : Fin 5, byteOf p j = if j.val < s.ecnt.val then byteOf s.eacc j else 0) ∧
      (s.encTailZero → p = s.eacc) ∧
      cs = ((xtr5 p).map sym).take ([8, 2, 3, 5, 7].getD s.ecnt.val 0) ∧
      cs = Codec.encg ((split5 s.eacc).take s.ecnt.val) ∧
      exec (.encEnd d) s =
        .next { s with eacc := 0, ecnt := 0, responses := s.responses ++ [respond false cs] }) ∧
    (s.eacc = 0xFF00000000 → s.ecnt = 1 →
      exec (.encEnd 0) s =
        .next { s with eacc := 0, ecnt := 0, responses := s.responses ++ [respond false [0x39, 0x36]] })

/-- R118 (the spec's own inference): from an idle ENC unit, the pushes of `b` and an END, with any DEC commands between,
answer `encode b`, a full group at each fifth push and the partial group at the END. -/
def Obligations.EncoderCommandsComputeEncode : Prop :=
  ∀ (b : List Byte) (d : Byte) (cs : List Instr) (rest : List Input) (s : State),
    s.encIdle → unitCommands .enc cs = b.map Instr.encPush ++ [.encEnd d] → s.presents cs rest →
    ∃ (t : State) (rs : List Response),
      Sys2Proof.core.run cs.length s = .next t ∧ t.inputs = rest ∧ rs.length = cs.length ∧
      t.responses = s.responses ++ rs ∧ t.encIdle ∧
      (∀ r ∈ unitResponses .enc cs rs, r.err = false) ∧
      lanesOf (unitResponses .enc cs rs) = Codec.encode b ∧
      (unitResponses .enc cs rs).length = b.length + 1 ∧
      (∀ k, k < b.length →
        ((unitResponses .enc cs rs)[k]?).map Response.items =
          some (if (k + 1) % 5 = 0 then Codec.encg ((b.drop (5 * (k / 5))).take 5) else [])) ∧
      ((unitResponses .enc cs rs)[b.length]?).map Response.items =
        some (if b.length % 5 = 0 then [] else Codec.encg (b.drop (5 * (b.length / 5))))

/-- 42_encode_pipeline.md section 3: messages one after the other owe nothing to each other (R121, decision D3, says that
the unit is idle after an END and that the next message starts anew); that each one's lanes are `encode` of it is R118's
clause, the spec's own inference. -/
def Obligations.EncodeMessagesAreIndependent : Prop :=
  ∀ (ms : List (List Byte)) (rest : List Input) (s : State),
    s.encIdle → s.presents (ms.flatMap encodeCommands) rest →
    ∃ (t : State) (rss : List (List Response)),
      Sys2Proof.core.run (ms.flatMap encodeCommands).length s = .next t ∧ t.inputs = rest ∧
      t.responses = s.responses ++ rss.flatten ∧ t.encIdle ∧
      rss.map List.length = ms.map (fun b => b.length + 1) ∧ rss.map lanesOf = ms.map Codec.encode

/-! ### The DEC unit -/

/-- R133 (decisions D2, D3, D6): all that `DEC.PUSH` does, for every character code, recognised or not. -/
def Obligations.DecPushFillsASlotOrAnswersAGroup : Prop :=
  ∀ (d : CharCode) (s : State),
    encode (.decPush d) = (0b10#2 ++ d : BitVec 10) ∧
    (s.dcnt.val < 7 → ∃ (g : Group) (c : Fin 8), c.val = s.dcnt.val + 1 ∧
      (∀ k : Fin 8, fieldOf g k = if k = s.dcnt then val d else fieldOf s.dacc k) ∧
      (s.decTailZero → g = s.dacc ||| ((val d).setWidth 40 <<< (35 - 5 * s.dcnt.val))) ∧
      exec (.decPush d) s =
        .next { s with dacc := g, dcnt := c, responses := s.responses ++ [respond false []] }) ∧
    (s.dcnt = 7 →
      exec (.decPush d) s =
        .next { s with
          dacc := 0
          dcnt := 0
          responses := s.responses ++ [respond false (split5 (s.dacc.extractLsb' 5 35 ++ val d))] }) ∧
    (d = 0x61 ∨ recognised d = false → exec (.decPush d) s = exec (.decPush 0x41) s) ∧
    (s.dacc = 0x0001020300 → s.dcnt = 7 →
      exec (.decPush 0x45) s =
        .next { s with
          dacc := 0
          dcnt := 0
          responses := s.responses ++ [respond false [0x00, 0x01, 0x02, 0x03, 0x04]] })

/-- R135 (decisions D2, D3, D6, D11): all that `DEC.END` does. The last list is `5 - DEC_DROP[c]` for `c` = 0 to 7, 0 where
the table says invalid. -/
def Obligations.DecEndFlushesOrReportsInvalidLength : Prop :=
  ∀ (d : Byte) (s : State),
    encode (.decEnd d) = (0b11#2 ++ d : BitVec 10) ∧
    (s.dcnt = 0 →
      exec (.decEnd d) s =
        .next { s with dacc := 0, dcnt := 0, responses := s.responses ++ [respond false []] }) ∧
    (s.dcnt = 1 ∨ s.dcnt = 4 ∨ s.dcnt = 6 →
      exec (.decEnd d) s =
        .next { s with dacc := 0, dcnt := 0, responses := s.responses ++ [respond true []] }) ∧
    (s.dcnt = 2 ∨ s.dcnt = 3 ∨ s.dcnt = 5 ∨ s.dcnt = 7 → ∃ p : Group,
      (∀ k : Fin 8, fieldOf p k = if k.val < s.dcnt.val then fieldOf s.dacc k else 0) ∧
      (s.decTailZero → p = s.dacc) ∧
      exec (.decEnd d) s =
        .next { s with
          dacc := 0
          dcnt := 0
          responses := s.responses ++
            [respond false ((split5 p).take ([5, 0, 1, 2, 0, 3, 0, 4].getD s.dcnt.val 0))] }) ∧
    (s.dacc = 0xFF00000000 → s.dcnt = 2 →
      exec (.decEnd 0) s =
        .next { s with dacc := 0, dcnt := 0, responses := s.responses ++ [respond false [0xFF]] })

/-- R139 (the spec's own inference): from an idle DEC unit, the pushes of `x` and an END, with any ENC commands between,
answer `decode x`, bytes or InvalidLength. -/
def Obligations.DecoderCommandsComputeDecode : Prop :=
  ∀ (x : List CharCode) (d : Byte) (cs : List Instr) (rest : List Input) (s : State),
    s.decIdle → unitCommands .dec cs = x.map Instr.decPush ++ [.decEnd d] → s.presents cs rest →
    ∃ (t : State) (rs : List Response),
      Sys2Proof.core.run cs.length s = .next t ∧ t.inputs = rest ∧ rs.length = cs.length ∧
      t.responses = s.responses ++ rs ∧ t.decIdle ∧
      (unitResponses .dec cs rs).length = x.length + 1 ∧
      (∀ k, k < x.length → ((unitResponses .dec cs rs)[k]?).map (fun r => r.err) = some false) ∧
      ((unitResponses .dec cs rs)[x.length]?).map (fun r => r.err) =
        some (decide (x.length % 8 = 1 ∨ x.length % 8 = 4 ∨ x.length % 8 = 6)) ∧
      decodeMessage (unitResponses .dec cs rs) = Codec.decode x

/-- 43_decode_pipeline.md section 3 on bytes answered before an error (decision D11): they are the decode of the full groups, and the
message's result is the error. -/
def Obligations.BytesBeforeAnErrorAreTheFullGroups : Prop :=
  ∀ (x : List CharCode) (rest : List Input) (s : State),
    s.decIdle → s.presents (decodeCommands x) rest →
    x.length % 8 = 1 ∨ x.length % 8 = 4 ∨ x.length % 8 = 6 →
    ∃ (t : State) (rs : List Response),
      Sys2Proof.core.run (x.length + 1) s = .next t ∧ rs.length = x.length + 1 ∧
      t.responses = s.responses ++ rs ∧
      Codec.decode (x.take (8 * (x.length / 8))) = .bytes (lanesOf rs) ∧
      (lanesOf rs).length = 5 * (x.length / 8) ∧
      decodeMessage rs = .invalidLength ∧ Codec.decode x = .invalidLength

/-- 43_decode_pipeline.md section 3: decode messages one after the other owe nothing to each other, failed ones included
(R142, decisions D3 and D11, says that the unit is idle after an END and that the next message starts anew); that each one's
result is `decode` of its text is R139's clause, the spec's own inference. -/
def Obligations.DecodeMessagesAreIndependent : Prop :=
  ∀ (ms : List (List CharCode)) (rest : List Input) (s : State),
    s.decIdle → s.presents (ms.flatMap decodeCommands) rest →
    ∃ (t : State) (rss : List (List Response)),
      Sys2Proof.core.run (ms.flatMap decodeCommands).length s = .next t ∧ t.inputs = rest ∧
      t.responses = s.responses ++ rss.flatten ∧ t.decIdle ∧
      rss.map List.length = ms.map (fun x => x.length + 1) ∧ rss.map decodeMessage = ms.map Codec.decode

/-! ### The exception -/

/-- R150 (decision D11): the one exception, its only cause (60_exceptions.md section 1) and its only trace, in the response. -/
def Obligations.OnlyDecEndRaisesInvalidLength : Prop :=
  ∀ (i : Instr) (s : State), ∃ (t : State) (r : Response),
    exec i s = .next t ∧ t.responses = s.responses ++ [r] ∧
    (r.err = true ↔ (∃ d, i = .decEnd d) ∧ (s.dcnt = 1 ∨ s.dcnt = 4 ∨ s.dcnt = 6)) ∧
    (r.err = true → r.n = 0 ∧ (∀ k : Fin 8, r.lanes[k] = 0) ∧ r.word = 0x100000000000000000)

/-- R155 (decision D11): what a raise does, and that the next command is executed like any other, from the state with only
the DEC unit cleared. -/
def Obligations.ARaiseClearsTheDecUnitAndNothingElse : Prop :=
  ∀ (d : Byte) (w : Command) (rest : List Input) (s : State),
    s.dcnt = 1 ∨ s.dcnt = 4 ∨ s.dcnt = 6 →
    exec (.decEnd d) s =
      .next { s with dacc := 0, dcnt := 0, responses := s.responses ++ [respond true []] } ∧
    (s.inputs = toInput (.decEnd d) :: .command w :: rest →
      Sys2Proof.core.run 2 s =
        exec (decode w)
          { s with dacc := 0, dcnt := 0, inputs := rest, responses := s.responses ++ [respond true []] })

/-- 60_exceptions.md section 5: `ERR` is not sticky; a `DEC.END` straight after a raise is the empty message. -/
def Obligations.AnEndAfterARaiseIsTheEmptyMessage : Prop :=
  ∀ (d d' : Byte) (s : State), s.dcnt = 1 ∨ s.dcnt = 4 ∨ s.dcnt = 6 →
    execSeq [.decEnd d, .decEnd d'] s =
      .next { s with
        dacc := 0
        dcnt := 0
        responses := s.responses ++ [respond true [], respond false []] }

/-! ### Both units -/

/-- 10_state.md section 2 (R25's first sentences): the frame of every command, in every state. -/
def Obligations.EveryCommandLeavesTheOtherUnitAlone : Prop :=
  ∀ (i : Instr) (s : State), ∃ (t : State) (r : Response),
    exec i s = .next t ∧ t.inputs = s.inputs ∧ t.responses = s.responses ++ [r] ∧
    (i.unit = .enc → t.dacc = s.dacc ∧ t.dcnt = s.dcnt) ∧
    (i.unit = .dec → t.eacc = s.eacc ∧ t.ecnt = s.ecnt)

/-- R33 (decisions D3, D6): a response is a function of the command and the registers; indeed of its own unit's registers
(10_state.md section 2), whatever the other registers, the earlier responses and the inputs to come. -/
def Obligations.AResponseDependsOnItsUnitsRegistersOnly : Prop :=
  ∀ (i : Instr) (s s' : State),
    (i.unit = .enc → s.eacc = s'.eacc ∧ s.ecnt = s'.ecnt) →
    (i.unit = .dec → s.dacc = s'.dacc ∧ s.dcnt = s'.dcnt) →
    ∃ (t t' : State) (r : Response),
      exec i s = .next t ∧ exec i s' = .next t' ∧
      t.responses = s.responses ++ [r] ∧ t'.responses = s'.responses ++ [r] ∧
      (i.unit = .enc → t.eacc = t'.eacc ∧ t.ecnt = t'.ecnt) ∧
      (i.unit = .dec → t.dacc = t'.dacc ∧ t.dcnt = t'.dcnt)

/-- 10_state.md section 2 (R25's inference, the spec's own): the ENC commands and the DEC commands of a sequence can be
reordered against each other without changing any response or the final registers. -/
def Obligations.ReorderingTheUnitsChangesNoResponse : Prop :=
  ∀ (cs cs' : List Instr) (s : State), (∀ u, unitCommands u cs = unitCommands u cs') →
    ∃ (t t' : State) (rs rs' : List Response),
      execSeq cs s = .next t ∧ execSeq cs' s = .next t' ∧
      rs.length = cs.length ∧ rs'.length = cs'.length ∧
      t.responses = s.responses ++ rs ∧ t'.responses = s.responses ++ rs' ∧
      t.sameRegs t' ∧ (∀ u, unitResponses u cs rs = unitResponses u cs' rs')

/-- 20_memory.md section 5 (R52, the spec's own inference): each unit answers as if the other's commands were absent. -/
def Obligations.AUnitAnswersAsIfAlone : Prop :=
  ∀ (u : Which) (cs : List Instr) (s : State),
    ∃ (t t' : State) (rs : List Response),
      execSeq cs s = .next t ∧ rs.length = cs.length ∧ t.responses = s.responses ++ rs ∧
      execSeq (unitCommands u cs) s = .next t' ∧ t'.responses = s.responses ++ unitResponses u cs rs ∧
      (u = .enc → t'.eacc = t.eacc ∧ t'.ecnt = t.ecnt) ∧ (u = .dec → t'.dacc = t.dacc ∧ t'.dcnt = t.dcnt)

/-- 10_state.md section 2 (R21 to R24, who writes which register) and 70_reset_and_hazards.md section 1: over a whole step,
only a unit's own commands and the reset event change its registers. -/
def Obligations.OnlyOwnCommandsOrResetChangeAUnit : Prop :=
  ∀ s t : State, step s = .next t →
    (t.eacc ≠ s.eacc ∨ t.ecnt ≠ s.ecnt →
      ∃ x rest, s.inputs = x :: rest ∧ (x = .reset ∨ ∃ w, x = .command w ∧ (decode w).unit = .enc)) ∧
    (t.dacc ≠ s.dacc ∨ t.dcnt ≠ s.dcnt →
      ∃ x rest, s.inputs = x :: rest ∧ (x = .reset ∨ ∃ w, x = .command w ∧ (decode w).unit = .dec))

/-- 10_state.md section 2 (R26, the spec's own inference): the invariant of the registers is kept by every step, which
always answers a next state. -/
def Obligations.EveryStepKeepsTheRegisterInvariant : Prop :=
  ∀ s : State, s.Inv → ∃ t : State, step s = .next t ∧ t.Inv

/-- 10_state.md section 2 (R26): the invariant holds after reset. -/
def Obligations.TheRegisterInvariantHoldsAtReset : Prop := State.reset.Inv

/-- 10_state.md section 2 (R26's "in particular", the spec's own inference): what the invariant says of an empty count and
of the last slots. -/
def Obligations.TheInvariantKeepsUnusedSlotsZero : Prop :=
  ∀ s : State, s.Inv →
    (s.ecnt = 0 → s.eacc = 0) ∧ s.eacc.extractLsb' 0 8 = 0 ∧
    (s.dcnt = 0 → s.dacc = 0) ∧ s.dacc.extractLsb' 0 5 = 0

/-- 10_state.md section 2 (R27): both units are idle after reset and each unit after its END, error or not; an END at an
idle unit changes no register and answers `N` = 0, `ERR` = 0 (20_memory.md section 3). -/
def Obligations.EndLeavesItsUnitIdle : Prop :=
  State.reset.encIdle ∧ State.reset.decIdle ∧
  ∀ (d : Byte) (s : State),
    (∃ t : State, exec (.encEnd d) s = .next t ∧ t.encIdle) ∧
    (∃ t : State, exec (.decEnd d) s = .next t ∧ t.decIdle) ∧
    (s.encIdle → exec (.encEnd d) s = .next { s with responses := s.responses ++ [respond false []] }) ∧
    (s.decIdle → exec (.decEnd d) s = .next { s with responses := s.responses ++ [respond false []] })

/-- 10_state.md section 2 (R36, the spec's own inference): the counts are the message lengths modulo 5 and 8. -/
def Obligations.CountsAreMessageLengthsModuloTheGroup : Prop :=
  ∀ (cs : List Instr) (s : State),
    (s.ecnt = 0 → (∀ i ∈ unitCommands .enc cs, ∃ d, i = .encPush d) →
      ∃ t : State, execSeq cs s = .next t ∧ t.ecnt.val = (unitCommands .enc cs).length % 5) ∧
    (s.dcnt = 0 → (∀ i ∈ unitCommands .dec cs, ∃ d, i = .decPush d) →
      ∃ t : State, execSeq cs s = .next t ∧ t.dcnt.val = (unitCommands .dec cs).length % 8)

/-! ### Responses -/

/-- 30_encoding.md section B.1: the lane rules (R74, decision D8), for the response of every command in every state. The
clauses on the values of `N` for each command, on `N` being never 6 and never above 8, and on lanes 5 to 7 of a DEC response
are what R74 marks [derived], the spec's own inference. -/
def Obligations.ResponsesKeepTheLaneRules : Prop :=
  ∀ (i : Instr) (s : State), ∃ (t : State) (r : Response),
    exec i s = .next t ∧ t.responses = s.responses ++ [r] ∧
    (∀ k : Fin 8, r.n.toNat ≤ k.val → r.lanes[k] = 0) ∧
    r.items.length = r.n.toNat ∧ (∀ k : Fin 8, k.val < r.n.toNat → r.items[k.val]? = some r.lanes[k]) ∧
    (r.err = true → r.n = 0) ∧
    (∀ d, i = .encPush d → r.n = 0 ∨ r.n = 8) ∧
    (∀ d, i = .encEnd d → r.n = 0 ∨ r.n = 2 ∨ r.n = 3 ∨ r.n = 5 ∨ r.n = 7) ∧
    (∀ d, i = .decPush d → r.n = 0 ∨ r.n = 5) ∧
    (∀ d, i = .decEnd d → r.n = 0 ∨ r.n = 1 ∨ r.n = 2 ∨ r.n = 3 ∨ r.n = 4) ∧
    r.n ≠ 6 ∧ r.n.toNat ≤ 8 ∧
    (i.unit = .dec → r.n.toNat ≤ 5 ∧ r.lanes[5] = 0 ∧ r.lanes[6] = 0 ∧ r.lanes[7] = 0)

/-- R73 (decision D8): the places of the fields in the 69-bit word, nothing lost, and one response per command. -/
def Obligations.ResponseWordsHoldTheirFields : Prop :=
  (∀ r : Response,
    r.word.getLsbD 68 = r.err ∧ r.word.extractLsb' 64 4 = r.n ∧
    (∀ k : Fin 8, r.word.extractLsb' (56 - 8 * k.val) 8 = r.lanes[k]) ∧ Response.ofWord r.word = r) ∧
  (∀ w : ResponseWord, (Response.ofWord w).word = w) ∧
  (∀ (i : Instr) (s : State), ∃ (t : State) (r : Response), exec i s = .next t ∧ t.responses = s.responses ++ [r])

/-! ### The extractor and the packer -/

/-- R90 and R93: `JOIN5` and `SPLIT5`, as integers. -/
def Obligations.JoinAndSplitAreBigEndian : Prop :=
  (∀ b0 b1 b2 b3 b4 : Byte,
    (join5 b0 b1 b2 b3 b4).toNat =
      b0.toNat * 2 ^ 32 + b1.toNat * 2 ^ 24 + b2.toNat * 2 ^ 16 + b3.toNat * 2 ^ 8 + b4.toNat ∧
    join5 b0 b1 b2 b3 b4 = b0 ++ b1 ++ b2 ++ b3 ++ b4) ∧
  (∀ g : Group, (split5 g).length = 5 ∧
    ∀ j, j < 5 → (split5 g)[j]? = some (g.extractLsb' (32 - 8 * j) 8) ∧
      ((split5 g).getD j 0).toNat = g.toNat / 2 ^ (32 - 8 * j) % 256) ∧
  join5 0 0 0 0 0 = 0 ∧ join5 0xFF 0xFF 0xFF 0xFF 0xFF = 0xFFFFFFFFFF ∧
  join5 0x00 0x01 0x02 0x03 0x04 = 0x0001020304 ∧ split5 0x0842108421 = [0x08, 0x42, 0x10, 0x84, 0x21]

/-- R91 and R92: `XTR5` and `PCK5`, as integers. -/
def Obligations.ExtractAndPackAreBigEndian : Prop :=
  (∀ g : Group, (xtr5 g).length = 8 ∧
    ∀ k, k < 8 → (xtr5 g)[k]? = some (g.extractLsb' (35 - 5 * k) 5) ∧
      ((xtr5 g).getD k 0).toNat = g.toNat / 2 ^ (35 - 5 * k) % 32) ∧
  (∀ g g' : Group, xtr5 g = xtr5 g' → g = g') ∧
  (∀ f0 f1 f2 f3 f4 f5 f6 f7 : Field,
    (pck5 f0 f1 f2 f3 f4 f5 f6 f7).toNat =
      f0.toNat * 2 ^ 35 + f1.toNat * 2 ^ 30 + f2.toNat * 2 ^ 25 + f3.toNat * 2 ^ 20 + f4.toNat * 2 ^ 15 +
        f5.toNat * 2 ^ 10 + f6.toNat * 2 ^ 5 + f7.toNat ∧
    pck5 f0 f1 f2 f3 f4 f5 f6 f7 = f0 ++ f1 ++ f2 ++ f3 ++ f4 ++ f5 ++ f6 ++ f7) ∧
  xtr5 0 = List.replicate 8 0 ∧ xtr5 0xFFFFFFFFFF = List.replicate 8 31 ∧
  xtr5 0x0001020304 = [0, 0, 0, 16, 4, 0, 24, 4] ∧
  pck5 0 0 0 16 4 0 24 4 = 0x0001020304 ∧ pck5 1 1 1 1 1 1 1 1 = 0x0842108421

/-- 40_field_extract.md section 2 (R94, the spec's own inference): the inverse laws. -/
def Obligations.ExtractorAndPackerAreInverse : Prop :=
  (∀ g : Group, pck5Seq (xtr5 g) = g ∧ join5Seq (split5 g) = g) ∧
  (∀ f0 f1 f2 f3 f4 f5 f6 f7 : Field,
    xtr5 (pck5 f0 f1 f2 f3 f4 f5 f6 f7) = [f0, f1, f2, f3, f4, f5, f6, f7]) ∧
  (∀ b0 b1 b2 b3 b4 : Byte, split5 (join5 b0 b1 b2 b3 b4) = [b0, b1, b2, b3, b4])

/-- 30_encoding.md section A.4 (R64, the spec's own inference): the wiring of the extractor and of the packer. -/
def Obligations.FieldAndByteBitsAreWiredAsListed : Prop :=
  (∀ b0 b1 b2 b3 b4 : Byte,
    xtr5 (join5 b0 b1 b2 b3 b4) =
      [b0.extractLsb' 3 5, b0.extractLsb' 0 3 ++ b1.extractLsb' 6 2, b1.extractLsb' 1 5,
       b1.extractLsb' 0 1 ++ b2.extractLsb' 4 4, b2.extractLsb' 0 4 ++ b3.extractLsb' 7 1, b3.extractLsb' 2 5,
       b3.extractLsb' 0 2 ++ b4.extractLsb' 5 3, b4.extractLsb' 0 5]) ∧
  (∀ f0 f1 f2 f3 f4 f5 f6 f7 : Field,
    split5 (pck5 f0 f1 f2 f3 f4 f5 f6 f7) =
      [f0 ++ f1.extractLsb' 2 3, f1.extractLsb' 0 2 ++ f2 ++ f3.extractLsb' 4 1,
       f3.extractLsb' 0 4 ++ f4.extractLsb' 1 4, f4.extractLsb' 0 1 ++ f5 ++ f6.extractLsb' 3 2,
       f6.extractLsb' 0 3 ++ f7])

/-- 40_field_extract.md section 2 (R96, the spec's own inference): leading fields depend on leading bytes only, and leading
bytes on leading fields only. -/
def Obligations.LeadingFieldsDependOnLeadingBytes : Prop :=
  (∀ (a a' : List Byte) (m : Nat), a.length = 5 → a'.length = 5 → m ≤ 8 →
    a.take ((5 * m + 7) / 8) = a'.take ((5 * m + 7) / 8) →
    (xtr5 (join5Seq a)).take m = (xtr5 (join5Seq a')).take m) ∧
  (∀ (v v' : List Field) (j : Nat), v.length = 8 → v'.length = 8 → j ≤ 5 →
    v.take ((8 * j + 4) / 5) = v'.take ((8 * j + 4) / 5) →
    (split5 (pck5Seq v)).take j = (split5 (pck5Seq v')).take j)

/-! ### The symbol tables -/

/-- R100, with the table of R61 as the formula of R60: the code of every symbol. -/
def Obligations.SymbolTableHoldsTheAlphabet : Prop :=
  ∀ f : Field,
    sym f = symrom f ∧ Config.alphabet[f.toNat]?.map Config.code = some (sym f) ∧
    (sym f).toNat =
      if f.toNat < 8 then 0x41 + f.toNat
      else if f.toNat < 13 then 0x4A + (f.toNat - 8)
      else if f.toNat < 24 then 0x50 + (f.toNat - 13)
      else 0x32 + (f.toNat - 24)

/-- R62: the value and the hit bit of each of the 256 codes. -/
def Obligations.ValueMapFollowsTheRangeTable : Prop :=
  ∀ c : CharCode,
    (0x32 ≤ c.toNat ∧ c.toNat ≤ 0x39 → valrom c = (true, BitVec.ofNat 5 (c.toNat - 0x32 + 24))) ∧
    (0x41 ≤ c.toNat ∧ c.toNat ≤ 0x48 → valrom c = (true, BitVec.ofNat 5 (c.toNat - 0x41))) ∧
    (0x4A ≤ c.toNat ∧ c.toNat ≤ 0x4E → valrom c = (true, BitVec.ofNat 5 (c.toNat - 0x4A + 8))) ∧
    (0x50 ≤ c.toNat ∧ c.toNat ≤ 0x5A → valrom c = (true, BitVec.ofNat 5 (c.toNat - 0x50 + 13))) ∧
    (0x61 ≤ c.toNat ∧ c.toNat ≤ 0x68 → valrom c = (true, BitVec.ofNat 5 (c.toNat - 0x61))) ∧
    (0x6A ≤ c.toNat ∧ c.toNat ≤ 0x6E → valrom c = (true, BitVec.ofNat 5 (c.toNat - 0x6A + 8))) ∧
    (0x70 ≤ c.toNat ∧ c.toNat ≤ 0x7A → valrom c = (true, BitVec.ofNat 5 (c.toNat - 0x70 + 13))) ∧
    (c.toNat ≤ 0x31 ∨ (0x3A ≤ c.toNat ∧ c.toNat ≤ 0x40) ∨ c.toNat = 0x49 ∨ c.toNat = 0x4F ∨
      (0x5B ≤ c.toNat ∧ c.toNat ≤ 0x60) ∨ c.toNat = 0x69 ∨ c.toNat = 0x6F ∨ 0x7B ≤ c.toNat →
      valrom c = (false, 0)) ∧
    val c = (valrom c).2

/-- 41_symbol_table.md (R101 and R103, the spec's own inferences): the laws of the two tables. -/
def Obligations.SymbolAndValueTablesAgree : Prop :=
  (∀ f f' : Field, sym f = sym f' → f = f') ∧
  (∀ f : Field, val (sym f) = f ∧ isSymbol (sym f) = true ∧ recognised (sym f) = true) ∧
  (∀ c : CharCode,
    (sym (val c) = c ↔ isSymbol c = true) ∧
    (recognised c = true → sym (val c) = upper c) ∧ (recognised c = false → sym (val c) = 0x41) ∧
    val (upper c) = val c ∧ val (lower c) = val c ∧
    (val c = 0 ↔ c = 0x41 ∨ c = 0x61 ∨ recognised c = false))

/-! ### The functions of layer F -/

/-- 42_encode_pipeline.md section 1 (R111, the spec's own inference): `encode` is `ENCG` group by group. -/
def Obligations.EncodeWorksGroupByGroup : Prop :=
  ∀ b : List Byte, Codec.encode b = (chunks 5 b).flatMap Codec.encg

/-- R112: the length of an encoded text. -/
def Obligations.EncodedLengthFollowsTheDropTable : Prop :=
  ∀ b : List Byte,
    (Codec.encode b).length = (b.length + 4) / 5 * 8 - [0, 6, 5, 3, 1].getD (b.length % 5) 0 ∧
    (Codec.encode b).length = 8 * (b.length / 5) + [0, 2, 3, 5, 7].getD (b.length % 5) 0 ∧
    (Codec.encode b).length % 8 ≠ 1 ∧ (Codec.encode b).length % 8 ≠ 4 ∧ (Codec.encode b).length % 8 ≠ 6

/-- R69: what the encoder emits is upper case, in the function and on the response port; and (30_encoding.md section A.6)
it is one of the 32 symbols. -/
def Obligations.TheEncoderEmitsOnlySymbols : Prop :=
  (∀ b : List Byte, ∀ c ∈ Codec.encode b, isSymbol c = true ∧ upper c = c) ∧
  (∀ (i : Instr) (s : State), i.unit = .enc → ∃ (t : State) (r : Response),
    exec i s = .next t ∧ t.responses = s.responses ++ [r] ∧ r.err = false ∧
    ∀ c ∈ r.items, isSymbol c = true ∧ upper c = c)

/-- 42_encode_pipeline.md section 3 (R120, the spec's own inference): which bits of a last group of 1 to 5 bytes the kept
characters carry, that the characters dropped from 1, 3 and 4 bytes are padding only, and that a message of length 2 modulo
5 loses bit 0 of its last byte. -/
def Obligations.TruncationKeepsTheListedBits : Prop :=
  (∀ b0 b1 b2 b3 b4 : Byte,
    Codec.encg [b0] = [b0.extractLsb' 3 5, b0.extractLsb' 0 3 ++ 0#2].map sym ∧
    Codec.encg [b0, b1] =
      [b0.extractLsb' 3 5, b0.extractLsb' 0 3 ++ b1.extractLsb' 6 2, b1.extractLsb' 1 5].map sym ∧
    Codec.encg [b0, b1, b2] =
      [b0.extractLsb' 3 5, b0.extractLsb' 0 3 ++ b1.extractLsb' 6 2, b1.extractLsb' 1 5,
       b1.extractLsb' 0 1 ++ b2.extractLsb' 4 4, b2.extractLsb' 0 4 ++ 0#1].map sym ∧
    Codec.encg [b0, b1, b2, b3] =
      [b0.extractLsb' 3 5, b0.extractLsb' 0 3 ++ b1.extractLsb' 6 2, b1.extractLsb' 1 5,
       b1.extractLsb' 0 1 ++ b2.extractLsb' 4 4, b2.extractLsb' 0 4 ++ b3.extractLsb' 7 1, b3.extractLsb' 2 5,
       b3.extractLsb' 0 2 ++ 0#3].map sym ∧
    Codec.encg [b0, b1, b2, b3, b4] = (xtr5 (join5 b0 b1 b2 b3 b4)).map sym ∧
    (xtr5 (join5 b0 0 0 0 0)).drop 2 = List.replicate 6 0 ∧
    (xtr5 (join5 b0 b1 b2 0 0)).drop 5 = List.replicate 3 0 ∧
    (xtr5 (join5 b0 b1 b2 b3 0)).drop 7 = [0] ∧
    (xtr5 (join5 b0 b1 0 0 0)).drop 3 = [b1.extractLsb' 0 1 ++ 0#4, 0, 0, 0, 0]) ∧
  (∀ (p : List Byte) (x : Byte), p.length % 5 = 1 → Codec.encode (p ++ [x]) = Codec.encode (p ++ [x ^^^ 1]))

/-- R131, whose reading of a whole text is the spec's own inference: `decode` is `DECG` group by group, and one error
voids all. -/
def Obligations.DecodeWorksGroupByGroup : Prop :=
  ∀ x : List CharCode,
    Codec.decode x =
      if .invalidLength ∈ (chunks 8 x).map Codec.decg then .invalidLength
      else .bytes (((chunks 8 x).map Codec.decg).flatMap decodedBytes)

/-- R136: the one error condition of `decode`, for any characters. -/
def Obligations.DecodeFailsExactlyOnThreeLengths : Prop :=
  (∀ x : List CharCode,
    Codec.decode x = .invalidLength ↔ x.length % 8 = 1 ∨ x.length % 8 = 4 ∨ x.length % 8 = 6) ∧
  Codec.decode [] = .bytes [] ∧ Codec.decode [0x41] = .invalidLength

/-- 43_decode_pipeline.md section 1 (R132, the spec's own inference): how many bytes a text gives. -/
def Obligations.DecodedLengthFollowsTheDropTable : Prop :=
  ∀ x : List CharCode, x.length % 8 ≠ 1 → x.length % 8 ≠ 4 → x.length % 8 ≠ 6 →
    ∃ bs : List Byte, Codec.decode x = .bytes bs ∧
      bs.length = (x.length + 7) / 8 * 5 - [0, 0, 4, 3, 0, 2, 0, 1].getD (x.length % 8) 0 ∧
      bs.length = 5 * (x.length / 8) + [0, 0, 1, 2, 0, 3, 0, 4].getD (x.length % 8) 0

/-- 43_decode_pipeline.md section 3 (R137, the spec's own inference): which field bits the kept bytes of a last group use. -/
def Obligations.DecodedGroupsUseTheListedBits : Prop :=
  ∀ x0 x1 x2 x3 x4 x5 x6 x7 : CharCode,
    Codec.decg [x0, x1] = .bytes [val x0 ++ (val x1).extractLsb' 2 3] ∧
    Codec.decg [x0, x1, x2] =
      .bytes [val x0 ++ (val x1).extractLsb' 2 3, (val x1).extractLsb' 0 2 ++ val x2 ++ 0#1] ∧
    Codec.decg [x0, x1, x2, x3, x4] =
      .bytes [val x0 ++ (val x1).extractLsb' 2 3, (val x1).extractLsb' 0 2 ++ val x2 ++ (val x3).extractLsb' 4 1,
        (val x3).extractLsb' 0 4 ++ (val x4).extractLsb' 1 4] ∧
    Codec.decg [x0, x1, x2, x3, x4, x5, x6] =
      .bytes [val x0 ++ (val x1).extractLsb' 2 3, (val x1).extractLsb' 0 2 ++ val x2 ++ (val x3).extractLsb' 4 1,
        (val x3).extractLsb' 0 4 ++ (val x4).extractLsb' 1 4,
        (val x4).extractLsb' 0 1 ++ val x5 ++ (val x6).extractLsb' 3 2] ∧
    Codec.decg [x0, x1, x2, x3, x4, x5, x6, x7] =
      .bytes [val x0 ++ (val x1).extractLsb' 2 3, (val x1).extractLsb' 0 2 ++ val x2 ++ (val x3).extractLsb' 4 1,
        (val x3).extractLsb' 0 4 ++ (val x4).extractLsb' 1 4,
        (val x4).extractLsb' 0 1 ++ val x5 ++ (val x6).extractLsb' 3 2, (val x6).extractLsb' 0 3 ++ val x7]

/-- 43_decode_pipeline.md section 3 (R138, the spec's own inference): case does not matter, and neither does any change of
characters that keeps their values. -/
def Obligations.DecodeSeesValuesOnly : Prop :=
  (∀ x : List CharCode, Codec.decode (x.map upper) = Codec.decode x ∧ Codec.decode (x.map lower) = Codec.decode x) ∧
  (∀ x x' : List CharCode, x.map val = x'.map val → Codec.decode x = Codec.decode x') ∧
  (∀ x : List CharCode, Codec.decode (x.map (fun c => if recognised c then c else 0x41)) = Codec.decode x)

/-- 42_encode_pipeline.md section 3 (R119, the spec's own inference): decoding an encoded sequence gives it back, except
that at length 2 modulo 5 bit 0 of the last byte is cleared. -/
def Obligations.DecodeUndoesEncodeUpToOneBit : Prop :=
  ∀ b : List Byte,
    (b.length % 5 ≠ 2 → Codec.decode (Codec.encode b) = .bytes b) ∧
    (∀ (p : List Byte) (x : Byte), b = p ++ [x] → b.length % 5 = 2 →
      Codec.decode (Codec.encode b) = .bytes (p ++ [x &&& 0xFE]))

/-- 43_decode_pipeline.md section 3 (R141, the spec's own inference): encoding a decoded text gives it back exactly when it
is canonical; the encoding always is a text of the same bytes. The list gives the ignored bits of the last field by
`L mod 8`. -/
def Obligations.EncodeUndoesDecodeOnCanonicalTextOnly : Prop :=
  ∀ (x : List CharCode) (bs : List Byte), Codec.decode x = .bytes bs →
    (Codec.encode bs = x ↔
      (∀ c ∈ x, isSymbol c = true) ∧
      (∀ c, x.getLast? = some c → val c &&& ([0, 0, 3, 0, 0, 1, 0, 7] : List Field).getD (x.length % 8) 0 = 0)) ∧
    Codec.decode (Codec.encode bs) = .bytes bs

/-! ### The assembler's notation -/

/-- 30_encoding.md section B.5 (R78): the commands and words that the four lines stand for, and which lines are legal. -/
def Obligations.AssemblerLinesStandForTheirWords : Prop :=
  (∀ n : Nat, n < 256 →
    (assembleLine (.encPush n)).map (fun is => is.map (fun i => (encode i).toNat)) = some [n] ∧
    (assembleLine (.decPush (.number n))).map (fun is => is.map (fun i => (encode i).toNat)) = some [0x200 + n]) ∧
  (∀ n : Nat, 256 ≤ n →
    assembleLine (.encPush n) = none ∧ assembleLine (.decPush (.number n)) = none) ∧
  (∀ c : Char, 0x20 ≤ c.toNat → c.toNat ≤ 0x7E →
    (assembleLine (.decPush (.quoted c))).map (fun is => is.map (fun i => (encode i).toNat)) =
      some [0x200 + c.toNat]) ∧
  (assembleLine .encEnd).map (fun is => is.map encode) = some [0x100] ∧
  (assembleLine .decEnd).map (fun is => is.map encode) = some [0x300]

/-- R79 (decision D10): the expansion of the two pseudo-instructions and their result on an idle unit. -/
def Obligations.PseudoInstructionsComputeTheTwoOperations : Prop :=
  (∀ bs : List Nat, (∀ n ∈ bs, n < 256) →
    assembleLine (.encode bs) = some (bs.map (fun n => Instr.encPush (BitVec.ofNat 8 n)) ++ [.encEnd 0]) ∧
    ∀ (s : State) (rest : List Input), s.encIdle → s.presents (lineCommands (.encode bs)) rest →
      ∃ (t : State) (rs : List Response),
        Sys2Proof.core.run (bs.length + 1) s = .next t ∧ rs.length = bs.length + 1 ∧
        t.responses = s.responses ++ rs ∧ lastErr rs = false ∧
        lanesOf rs = Codec.encode (bs.map (BitVec.ofNat 8))) ∧
  (∀ cs : List Char, (∀ c ∈ cs, printable c = true) →
    assembleLine (.decode cs) = some (cs.map (fun c => Instr.decPush (Config.code c)) ++ [.decEnd 0]) ∧
    ∀ (s : State) (rest : List Input), s.decIdle → s.presents (lineCommands (.decode cs)) rest →
      ∃ (t : State) (rs : List Response),
        Sys2Proof.core.run (cs.length + 1) s = .next t ∧ rs.length = cs.length + 1 ∧
        t.responses = s.responses ++ rs ∧
        (lastErr rs = true ↔ Codec.decode (cs.map Config.code) = .invalidLength) ∧
        (lastErr rs = false → Codec.decode (cs.map Config.code) = .bytes (lanesOf rs)))
end

