-- ==== Sys2Proof/Laws/Config.lean ====
section
/-! SUPPORT. The constants of the configuration fit each other and the types that carry them (00_scope.md R5, R6). -/

namespace Sys2Proof.Config

/-- The types of Word.lean have the widths the configuration names. -/
theorem word_widths :
    Byte = BitVec byteW ∧ CharCode = BitVec charW ∧ Field = BitVec fieldW ∧ Group = BitVec groupBits ∧
      Command = BitVec cmdW ∧ ResponseWord = BitVec rspW := ⟨rfl, rfl, rfl, rfl, rfl, rfl⟩

/-- A group is five bytes and eight fields; a command is two bits and an item; a response is `ERR`, `N` and eight lanes. -/
theorem widths_fit :
    groupBytes * byteW = groupBits ∧ groupChars * fieldW = groupBits ∧ cmdW = 2 + byteW ∧
      rspW = 1 + 4 + groupChars * charW ∧ 2 ^ fieldW = nSym := by decide

/-- The alphabet has one symbol per field value, and no symbol repeats (30_encoding.md R60). -/
theorem alphabet_fits : alphabet.length = nSym ∧ alphabet.Nodup := by decide

/-- No entry of the two tables reaches beyond a group (42 R110, 43 R130). -/
theorem drops_fit :
    (∀ r, encDrop r < groupChars) ∧ ∀ r k, decDrop r = some k → k < groupBytes := by
  refine ⟨by decide, ?_⟩
  intro r k h
  fin_cases r <;> simp_all [decDrop, groupBytes] <;> omega

end Sys2Proof.Config
end

