-- ==== Sys2Proof/Laws/Ops.lean ====
section
/-! SUPPORT. What the shared operations on groups and responses do, bit by bit and item by item. -/

namespace Sys2Proof.Machine

theorem byteOf_getLsbD (g : Group) (j b : Nat) :
    (byteOf g j).getLsbD b = (decide (b < 8) && g.getLsbD (32 - 8 * j + b)) := by
  simp [byteOf, BitVec.getLsbD_extractLsb']

theorem fieldOf_getLsbD (g : Group) (k b : Nat) :
    (fieldOf g k).getLsbD b = (decide (b < 5) && g.getLsbD (35 - 5 * k + b)) := by
  simp [fieldOf, BitVec.getLsbD_extractLsb']

/-- Replacing a slice writes the new bits in the slice and keeps every other bit. -/
theorem replaceSlice_getLsbD {w : Nat} (g : Group) (lo : Nat) (v : BitVec w) (b : Nat) (hb : b < 40) :
    (replaceSlice g lo v).getLsbD b =
      if lo ≤ b ∧ b < lo + w then v.getLsbD (b - lo) else g.getLsbD b := by
  by_cases hlo : lo ≤ b
  · by_cases hw : b < lo + w
    · have : b - lo < w := by omega
      simp [replaceSlice, hb, hlo, hw, this, Nat.not_lt.mpr hlo]
    · have h3 : ¬ b - lo < w := by omega
      have h4 : v.getLsbD (b - lo) = false := BitVec.getLsbD_of_ge _ _ (by omega)
      simp [replaceSlice, hb, hlo, hw, h3, h4, Nat.not_lt.mpr hlo]
  · have h3 : b < lo := by omega
    simp [replaceSlice, hb, hlo, h3]

/-- Zeroing the low `n` bits clears them and keeps every other bit. -/
theorem zeroLow_getLsbD (g : Group) (n b : Nat) :
    (zeroLow g n).getLsbD b = if b < n then false else g.getLsbD b := by
  by_cases hb : b < 40
  · by_cases hn : b < n
    · simp [zeroLow, hb, hn]
    · have : n + (b - n) = b := by omega
      simp [zeroLow, hb, hn, this]
  · have h4 : g.getLsbD b = false := BitVec.getLsbD_of_ge _ _ (by omega)
    have h5 : (zeroLow g n).getLsbD b = false := BitVec.getLsbD_of_ge _ _ (by omega)
    simp [h4, h5]

/-- Writing byte slot `c`, read back one byte at a time. -/
theorem byteOf_putByte (g : Group) (c : Fin 5) (d : Byte) (j : Fin 5) :
    byteOf (putByte g c d) j = if j = c then d else byteOf g j := by
  have hc := c.isLt
  have hj := j.isLt
  apply BitVec.eq_of_getLsbD_eq
  intro b hb
  rw [byteOf_getLsbD, putByte, replaceSlice_getLsbD _ _ _ _ (by omega)]
  by_cases h : j = c
  · subst h
    simp [hb]
  · have h' : j.val ≠ c.val := fun e => h (Fin.ext e)
    rw [if_neg h, if_neg (by omega), byteOf_getLsbD]

/-- Writing field slot `c`, read back one field at a time. -/
theorem fieldOf_putField (g : Group) (c : Fin 8) (f : Field) (k : Fin 8) :
    fieldOf (putField g c f) k = if k = c then f else fieldOf g k := by
  have hc := c.isLt
  have hk := k.isLt
  apply BitVec.eq_of_getLsbD_eq
  intro b hb
  rw [fieldOf_getLsbD, putField, replaceSlice_getLsbD _ _ _ _ (by omega)]
  by_cases h : k = c
  · subst h
    simp [hb]
  · have h' : k.val ≠ c.val := fun e => h (Fin.ext e)
    rw [if_neg h, if_neg (by omega), fieldOf_getLsbD]

/-- Padding keeps the byte slots before `c` and zeroes the others. -/
theorem byteOf_padBytes (g : Group) (c j : Fin 5) :
    byteOf (padBytes g c) j = if j.val < c.val then byteOf g j else 0 := by
  have hc := c.isLt
  have hj := j.isLt
  apply BitVec.eq_of_getLsbD_eq
  intro b hb
  rw [byteOf_getLsbD, padBytes, zeroLow_getLsbD]
  by_cases h : j.val < c.val
  · rw [if_neg (by omega), if_pos h, byteOf_getLsbD]
  · rw [if_pos (by omega), if_neg h]
    simp

/-- Padding keeps the field slots before `c` and zeroes the others. -/
theorem fieldOf_padFields (g : Group) (c k : Fin 8) :
    fieldOf (padFields g c) k = if k.val < c.val then fieldOf g k else 0 := by
  have hc := c.isLt
  have hk := k.isLt
  apply BitVec.eq_of_getLsbD_eq
  intro b hb
  rw [fieldOf_getLsbD, padFields, zeroLow_getLsbD]
  by_cases h : k.val < c.val
  · rw [if_neg (by omega), if_pos h, fieldOf_getLsbD]
  · rw [if_pos (by omega), if_neg h]
    simp

/-- A group is its five bytes. -/
theorem group_ext_bytes {g h : Group} (e : ∀ j : Fin 5, byteOf g j = byteOf h j) : g = h := by
  apply BitVec.eq_of_getLsbD_eq
  intro b hb
  have := congrArg (fun x => x.getLsbD (b % 8)) (e ⟨4 - b / 8, by omega⟩)
  simp only [byteOf_getLsbD] at this
  have h8 : b % 8 < 8 := by omega
  have hb' : 32 - 8 * (4 - b / 8) + b % 8 = b := by omega
  simpa [h8, hb'] using this

/-- A group is its eight fields. -/
theorem group_ext_fields {g h : Group} (e : ∀ k : Fin 8, fieldOf g k = fieldOf h k) : g = h := by
  apply BitVec.eq_of_getLsbD_eq
  intro b hb
  have := congrArg (fun x => x.getLsbD (b % 5)) (e ⟨7 - b / 5, by omega⟩)
  simp only [fieldOf_getLsbD] at this
  have h8 : b % 5 < 5 := by omega
  have hb' : 35 - 5 * (7 - b / 5) + b % 5 = b := by omega
  simpa [h8, hb'] using this

@[simp] theorem respond_err (e : Bool) (l : List Byte) : (respond e l).err = e := rfl

@[simp] theorem respond_n (e : Bool) (l : List Byte) : (respond e l).n = BitVec.ofNat 4 l.length := rfl

/-- Lane `k` of a response is its item `k`, and zero beyond the last item. -/
theorem respond_lane (e : Bool) (l : List Byte) (k : Fin 8) : (respond e l).lanes[k] = l.getD k 0 := by
  fin_cases k <;> rfl

/-- The valid lanes of a response are the items it was given. -/
@[simp] theorem respond_items (e : Bool) (l : List Byte) (h : l.length ≤ 8) : (respond e l).items = l := by
  have hn : (BitVec.ofNat 4 l.length).toNat = l.length := by
    rw [BitVec.toNat_ofNat]
    exact Nat.mod_eq_of_lt (by omega)
  rw [Response.items, respond_n, hn]
  apply List.ext_getElem
  · simp [respond, h]
  · intro i h1 h2
    have hi : i < 8 := by omega
    have := respond_lane e l ⟨i, hi⟩
    simp only [Fin.getElem_fin] at this
    simp [this, List.getElem?_eq_getElem h2]

@[simp] theorem xtr5_length (g : Group) : (xtr5 g).length = 8 := rfl

@[simp] theorem split5_length (g : Group) : (split5 g).length = 5 := rfl

end Sys2Proof.Machine
end

