-- ==== Sys2Proof/Laws/PerInstr.lean ====
section
/-! SUPPORT. The family OpcodeBits: the word of an instruction holds its unit bit, its end bit and its data where the
opcode map puts them (30_encoding.md R70, R72). One lemma per constructor. -/

namespace Sys2Proof.Laws.OpcodeBits

/-- `CMD AND mask = match` of the instruction's row in spec/opcode_table.json, and `D` in the low eight bits. -/
def Statement : Instr → Prop
  | .encPush d => encode (.encPush d) &&& 0x300 = 0x000 ∧ (encode (.encPush d)).extractLsb' 0 8 = d
  | .encEnd d => encode (.encEnd d) &&& 0x300 = 0x100 ∧ (encode (.encEnd d)).extractLsb' 0 8 = d
  | .decPush d => encode (.decPush d) &&& 0x300 = 0x200 ∧ (encode (.decPush d)).extractLsb' 0 8 = d
  | .decEnd d => encode (.decEnd d) &&& 0x300 = 0x300 ∧ (encode (.decEnd d)).extractLsb' 0 8 = d

theorem encPush (d : Byte) : Statement (.encPush d) := by
  revert d
  unfold Statement
  decide

theorem encEnd (d : Byte) : Statement (.encEnd d) := by
  revert d
  unfold Statement
  decide

theorem decPush (d : CharCode) : Statement (.decPush d) := by
  revert d
  unfold Statement
  decide

theorem decEnd (d : Byte) : Statement (.decEnd d) := by
  revert d
  unfold Statement
  decide

end Sys2Proof.Laws.OpcodeBits
end

