-- ==== Sys2Proof/Laws/Run.lean ====
section
/-! SUPPORT. Runs one step at a time, and command sequences one command at a time. -/

namespace Sys2Proof.Machine

@[simp] theorem run_zero (s : State) : Sys2Proof.core.run 0 s = .next s := rfl

/-- A run whose first step answers a next state goes on from there. -/
theorem run_succ_of_next {s t : State} (n : Nat) (h : step s = .next t) :
    Sys2Proof.core.run (n + 1) s = Sys2Proof.core.run n t := by
  have hs : Sys2Proof.core.step s = .next t := h
  simp [Host.Core.run, hs]

@[simp] theorem execSeq_nil (s : State) : execSeq [] s = .next s := rfl

/-- A command sequence whose first command answers a next state goes on from there. -/
theorem execSeq_cons_of_next {i : Instr} {s t : State} (cs : List Instr) (h : exec i s = .next t) :
    execSeq (i :: cs) s = execSeq cs t := by
  simp [execSeq, h]

/-- A sequence is run by running its first part and then its second. -/
theorem execSeq_append_of_next {s t : State} (cs ds : List Instr) (h : execSeq cs s = .next t) :
    execSeq (cs ++ ds) s = execSeq ds t := by
  induction cs generalizing s with
  | nil => cases h; rfl
  | cons i cs ih =>
    cases hi : exec i s with
    | next u =>
      rw [execSeq_cons_of_next cs hi] at h
      rw [List.cons_append, execSeq_cons_of_next _ hi, ih h]
    | fault f => nomatch f
    | refused r => simp [execSeq, hi] at h

@[simp] theorem unitCommands_nil (u : Which) : unitCommands u [] = [] := rfl

theorem unitCommands_cons (u : Which) (i : Instr) (cs : List Instr) :
    unitCommands u (i :: cs) = if i.unit = u then i :: unitCommands u cs else unitCommands u cs := by
  by_cases h : i.unit = u <;> simp [unitCommands, h]

theorem unitResponses_cons (u : Which) (i : Instr) (cs : List Instr) (r : Response) (rs : List Response) :
    unitResponses u (i :: cs) (r :: rs) =
      if i.unit = u then r :: unitResponses u cs rs else unitResponses u cs rs := by
  by_cases h : i.unit = u <;> simp [unitResponses, h]

@[simp] theorem lanesOf_nil : lanesOf [] = [] := rfl

@[simp] theorem lanesOf_cons (r : Response) (rs : List Response) : lanesOf (r :: rs) = r.items ++ lanesOf rs := rfl

@[simp] theorem lanesOf_append (rs rs' : List Response) : lanesOf (rs ++ rs') = lanesOf rs ++ lanesOf rs' := by
  simp [lanesOf]

end Sys2Proof.Machine
end

