-- ==== Sys2Proof/Laws/Sequence.lean ====
section
/-! SUPPORT. The sequence functions of 00_scope.md R8. -/

namespace Sys2Proof.Machine

@[simp] theorem zeros_length (w n : Nat) : (zeros w n).length = n := by simp [zeros]

@[simp] theorem zeros_zero (w : Nat) : zeros w 0 = [] := rfl

/-- More fuel than items changes nothing. -/
theorem chunksFuel_enough {α : Type} (n : Nat) (hn : 0 < n) :
    ∀ (f f' : Nat) (s : List α), s.length ≤ f → s.length ≤ f' → chunksFuel n f s = chunksFuel n f' s := by
  intro f
  induction f with
  | zero =>
    intro f' s h _
    have : s = [] := List.length_eq_zero_iff.mp (by omega)
    subst this
    cases f' <;> rfl
  | succ f ih =>
    intro f' s h h'
    cases s with
    | nil => cases f' <;> rfl
    | cons a s =>
      cases f' with
      | zero => simp at h'
      | succ f' =>
        simp only [chunksFuel]
        have hl : (List.drop n (a :: s)).length ≤ s.length := by simp; omega
        simp only [List.length_cons] at h h'
        rw [ih f' _ (by omega) (by omega)]

@[simp] theorem chunks_nil {α : Type} (n : Nat) : chunks n ([] : List α) = [] := rfl

/-- The first chunk and the rest, of a sequence that is not empty. -/
theorem chunks_eq {α : Type} (n : Nat) (hn : 0 < n) (s : List α) (hs : s ≠ []) :
    chunks n s = s.take n :: chunks n (s.drop n) := by
  cases s with
  | nil => exact absurd rfl hs
  | cons a s =>
    show chunksFuel n (s.length + 1) (a :: s) = _
    simp only [chunksFuel]
    rw [chunks, chunksFuel_enough n hn s.length _ _ (by simp; omega) (Nat.le_refl _)]

/-- A full first chunk splits off. -/
theorem chunks_append {α : Type} (n : Nat) (hn : 0 < n) (a s : List α) (ha : a.length = n) :
    chunks n (a ++ s) = a :: chunks n s := by
  have hne : a ++ s ≠ [] := by
    intro h
    have := congrArg List.length h
    rw [List.length_append, List.length_nil] at this
    omega
  rw [chunks_eq n hn _ hne]
  subst ha
  simp

end Sys2Proof.Machine
end

