-- ==== Sys2Proof/Laws/State.lean ====
section
/-! SUPPORT. One lemma per field of State for each operation that writes a state: none of the later proofs unfolds a record
update. -/

namespace Sys2Proof.Machine

@[simp] theorem answer_eacc (e : Bool) (l : List Byte) (s : State) : (answer e l s).eacc = s.eacc := rfl
@[simp] theorem answer_ecnt (e : Bool) (l : List Byte) (s : State) : (answer e l s).ecnt = s.ecnt := rfl
@[simp] theorem answer_dacc (e : Bool) (l : List Byte) (s : State) : (answer e l s).dacc = s.dacc := rfl
@[simp] theorem answer_dcnt (e : Bool) (l : List Byte) (s : State) : (answer e l s).dcnt = s.dcnt := rfl
@[simp] theorem answer_inputs (e : Bool) (l : List Byte) (s : State) : (answer e l s).inputs = s.inputs := rfl
@[simp] theorem answer_responses (e : Bool) (l : List Byte) (s : State) :
    (answer e l s).responses = s.responses ++ [respond e l] := rfl

@[simp] theorem setEnc_eacc (g : Group) (c : Fin 5) (s : State) : (setEnc g c s).eacc = g := rfl
@[simp] theorem setEnc_ecnt (g : Group) (c : Fin 5) (s : State) : (setEnc g c s).ecnt = c := rfl
@[simp] theorem setEnc_dacc (g : Group) (c : Fin 5) (s : State) : (setEnc g c s).dacc = s.dacc := rfl
@[simp] theorem setEnc_dcnt (g : Group) (c : Fin 5) (s : State) : (setEnc g c s).dcnt = s.dcnt := rfl
@[simp] theorem setEnc_inputs (g : Group) (c : Fin 5) (s : State) : (setEnc g c s).inputs = s.inputs := rfl
@[simp] theorem setEnc_responses (g : Group) (c : Fin 5) (s : State) : (setEnc g c s).responses = s.responses := rfl

@[simp] theorem setDec_eacc (g : Group) (c : Fin 8) (s : State) : (setDec g c s).eacc = s.eacc := rfl
@[simp] theorem setDec_ecnt (g : Group) (c : Fin 8) (s : State) : (setDec g c s).ecnt = s.ecnt := rfl
@[simp] theorem setDec_dacc (g : Group) (c : Fin 8) (s : State) : (setDec g c s).dacc = g := rfl
@[simp] theorem setDec_dcnt (g : Group) (c : Fin 8) (s : State) : (setDec g c s).dcnt = c := rfl
@[simp] theorem setDec_inputs (g : Group) (c : Fin 8) (s : State) : (setDec g c s).inputs = s.inputs := rfl
@[simp] theorem setDec_responses (g : Group) (c : Fin 8) (s : State) : (setDec g c s).responses = s.responses := rfl

@[simp] theorem raiseInvalidLength_eacc (s : State) : (raiseInvalidLength s).eacc = s.eacc := rfl
@[simp] theorem raiseInvalidLength_ecnt (s : State) : (raiseInvalidLength s).ecnt = s.ecnt := rfl
@[simp] theorem raiseInvalidLength_dacc (s : State) : (raiseInvalidLength s).dacc = 0 := rfl
@[simp] theorem raiseInvalidLength_dcnt (s : State) : (raiseInvalidLength s).dcnt = 0 := rfl
@[simp] theorem raiseInvalidLength_inputs (s : State) : (raiseInvalidLength s).inputs = s.inputs := rfl
@[simp] theorem raiseInvalidLength_responses (s : State) :
    (raiseInvalidLength s).responses = s.responses ++ [respond true []] := rfl

@[simp] theorem resetEvent_eacc (s : State) : (resetEvent s).eacc = 0 := rfl
@[simp] theorem resetEvent_ecnt (s : State) : (resetEvent s).ecnt = 0 := rfl
@[simp] theorem resetEvent_dacc (s : State) : (resetEvent s).dacc = 0 := rfl
@[simp] theorem resetEvent_dcnt (s : State) : (resetEvent s).dcnt = 0 := rfl
@[simp] theorem resetEvent_inputs (s : State) : (resetEvent s).inputs = s.inputs := rfl
@[simp] theorem resetEvent_responses (s : State) : (resetEvent s).responses = s.responses := rfl

@[simp] theorem idleStep_eq (s : State) : idleStep s = s := rfl

@[simp] theorem present_eacc (i : Input) (s : State) : (present i s).eacc = s.eacc := rfl
@[simp] theorem present_ecnt (i : Input) (s : State) : (present i s).ecnt = s.ecnt := rfl
@[simp] theorem present_dacc (i : Input) (s : State) : (present i s).dacc = s.dacc := rfl
@[simp] theorem present_dcnt (i : Input) (s : State) : (present i s).dcnt = s.dcnt := rfl
@[simp] theorem present_inputs (i : Input) (s : State) : (present i s).inputs = i :: s.inputs := rfl
@[simp] theorem present_responses (i : Input) (s : State) : (present i s).responses = s.responses := rfl

/-- All that taking the next input can do: nothing to take, or the first input and the state without it. -/
theorem takeInput_cases (s : State) :
    (s.inputs = [] ∧ takeInput s = none) ∨
      ∃ i rest, s.inputs = i :: rest ∧ takeInput s = some (i, { s with inputs := rest }) := by
  cases h : s.inputs with
  | nil => exact .inl ⟨rfl, by simp [takeInput, h]⟩
  | cons i rest => exact .inr ⟨i, rest, rfl, by simp [takeInput, h]⟩

/-- An input just presented is the next one taken, and taking it gives back the state before. -/
@[simp] theorem takeInput_present (i : Input) (s : State) : takeInput (present i s) = some (i, s) := rfl

end Sys2Proof.Machine
end

