-- ==== Sys2Proof/Tests/Slice0.lean ====
section
/-! SUPPORT. Tests of one step or one function on small inputs, with results taken from spec/95_test_vectors.md (the vector
is named at each), the smoke tests of the checks in WellFormed.lean, and for every statement of
Certificates/Slice0/Obligations.lean that has hypotheses a witness that meets them. -/

namespace Sys2Proof.Tests

open Sys2Proof.Machine

/-- A state with these registers, nothing to present and nothing answered. -/
def regs (eacc : Group) (ecnt : Fin 5) (dacc : Group) (dcnt : Fin 8) : State :=
  { eacc := eacc, ecnt := ecnt, dacc := dacc, dcnt := dcnt, inputs := [], responses := [] }

/-- The next state of one command word is the state with these registers, and the one response is this word. -/
def stepsTo (s : State) (w : Nat) (t : State) (rsp : ResponseWord) : Bool :=
  match step (s.withFetchWord 16 w) with
  | .next u => decide ({ u with responses := [] } = t) && decide (u.responses.map Response.word = [rsp])
  | _ => false

/-! ### One step per command: V-C of 95_test_vectors.md -/

theorem test_encPush_first_byte :  -- V-C1
    stepsTo (regs 0 0 0 0) 0x0FF (regs 0xFF00000000 1 0 0) 0x000000000000000000 = true := by decide

theorem test_encPush_completes_group :  -- V-C3
    stepsTo (regs 0x0001020300 4 0 0) 0x004 (regs 0 0 0 0) 0x084141415345413245 = true := by decide

theorem test_encEnd_two_bytes_ignores_data :  -- V-C4
    stepsTo (regs 0xFFFF000000 2 0 0) 0x1AB (regs 0 0 0 0) 0x033939390000000000 = true := by decide

theorem test_encEnd_four_bytes :  -- V-C6
    stepsTo (regs 0xDEADBEEF00 4 0 0) 0x100 (regs 0 0 0 0) 0x073534593537353200 = true := by decide

theorem test_decPush_unrecognised_advances :  -- V-C19
    stepsTo (regs 0 0 0xF800000000 1) 0x24F (regs 0 0 0xF800000000 2) 0x000000000000000000 = true := by decide

theorem test_decPush_completes_group :  -- V-C12
    stepsTo (regs 0 0 0x0001020300 7) 0x245 (regs 0 0 0 0) 0x050001020304000000 = true := by decide

theorem test_decEnd_invalid_length_leaves_enc :  -- V-C20
    stepsTo (regs 0xFF00000000 1 0xF800000000 1) 0x300 (regs 0xFF00000000 1 0 0) 0x100000000000000000 = true := by
  decide

theorem test_decEnd_seven_characters :  -- V-C17
    stepsTo (regs 0 0 0xFFFFFFFFE0 7) 0x300 (regs 0 0 0 0) 0x04FFFFFFFF00000000 = true := by decide

/-! ### Decoding: words written from 30_encoding.md R70 and R72, `U` `E` `DDDDDDDD` -/

theorem test_decode_encPush : decode 0b0011111111 = .encPush 0xFF := by decide
theorem test_decode_encEnd : decode 0b0110101011 = .encEnd 0xAB := by decide
theorem test_decode_decPush : decode 0b1001000101 = .decPush 0x45 := by decide
theorem test_decode_decEnd : decode 0b1111111111 = .decEnd 0xFF := by decide
theorem test_decode_refuses_eleven_bits :
    decodeNat 0x400 = .error .widerThanCommand ∧ decodeTableWord 16 0x400 = none ∧
      decodeTableWord 16 0x239 = some (.decPush 0x39) := ⟨rfl, by decide, by decide⟩

/-! ### The functions of layer F -/

theorem test_symrom_codes :  -- the table of 30_encoding.md R61
    (List.range 32).map (fun i => sym (BitVec.ofNat 5 i)) =
      [0x41, 0x42, 0x43, 0x44, 0x45, 0x46, 0x47, 0x48, 0x4A, 0x4B, 0x4C, 0x4D, 0x4E, 0x50, 0x51, 0x52] ++
      [0x53, 0x54, 0x55, 0x56, 0x57, 0x58, 0x59, 0x5A, 0x32, 0x33, 0x34, 0x35, 0x36, 0x37, 0x38, 0x39] := by decide

theorem test_val_boundaries :  -- V-S
    [0x31, 0x32, 0x39, 0x3A, 0x48, 0x49, 0x4A, 0x4E, 0x4F, 0x50, 0x5A, 0x7A, 0xC1].map val =
      [0, 24, 31, 0, 7, 0, 8, 12, 0, 13, 23, 23, 0] := by decide

theorem test_xtr5 : xtr5 0x123456789A = [2, 8, 26, 5, 12, 30, 4, 26] := by decide  -- V-X7
theorem test_pck5 : pck5 27 26 22 27 29 27 26 2 = 0xDEADBEEF42 := by decide  -- V-X8
theorem test_encode_two_bytes : Codec.encode [0xFF, 0xFF] = [0x39, 0x39, 0x39] := by decide  -- V-E5
theorem test_encode_six_bytes :  -- V-E24
    Codec.encode [0x48, 0x65, 0x6C, 0x6C, 0x6F, 0x21] =
      [0x4B, 0x42, 0x55, 0x59, 0x32, 0x35, 0x44, 0x52, 0x45, 0x45] := by decide
theorem test_decode_three_characters : Codec.decode [0x39, 0x39, 0x36] = .bytes [0xFF, 0xF8] := by decide  -- V-D14
theorem test_decode_invalid : Codec.decode [0x4B, 0x42, 0x55, 0x59] = .invalidLength := by decide  -- V-D35

/-! ### The checks of WellFormed.lean refuse -/

theorem smoke_byte_literal : byteLiteralOk 256 = false ∧ byteLiteralOk 255 = true := by decide
theorem smoke_printable : printable '\n' = false ∧ printable '~' = true := by decide
theorem smoke_charLiteral :
    (CharLiteral.number 256).wellFormed = false ∧ (CharLiteral.quoted '\t').wellFormed = false := by decide
theorem smoke_encPush_line : (AsmLine.encPush 256).wellFormed = false := by decide
theorem smoke_decPush_line : (AsmLine.decPush (.quoted '\n')).wellFormed = false := by decide
theorem smoke_encode_line : (AsmLine.encode [0, 300]).wellFormed = false := by decide
theorem smoke_decode_line : (AsmLine.decode ['A', '\n']).wellFormed = false := by decide
theorem smoke_canonical : (Instr.encEnd 0xAB).canonical = false ∧ (Instr.decEnd 1).canonical = false := by decide

/-! ### The assembler as text (30_encoding.md R78, R79) -/

theorem test_assemble_push_line :
    assembleText "  ENC.PUSH 0x4a ; J".toList = some [.encPush 0x4A] := by decide
theorem test_assemble_quoted_semicolon :
    assembleText "DEC.PUSH ';' ; x".toList = some [.decPush 0x3B] := by decide
theorem test_assemble_pseudo :
    assembleProgram "ENCODE 255 1\nDECODE \"A;\"".toList =
      some [.encPush 0xFF, .encPush 1, .encEnd 0, .decPush 0x41, .decPush 0x3B, .decEnd 0] := by decide
theorem test_assemble_refuses : assembleText "enc.push 1".toList = none := by decide

/-! ### Witnesses: the hypotheses of the statements can be met, each at a boundary of its range -/

theorem witness_EveryCommandRoundTripsThroughItsWord : (10 : Nat) ≤ 10 ∧ 1024 ≤ 1024 % 2 ^ 11 := by decide

theorem witness_NoWordIsIllegalAndEndIgnoresItsData :
    (0x100 ≤ (0x1FF : Command).toNat ∧ (0x1FF : Command).toNat ≤ 0x1FF) ∧ 0x300 ≤ (0x3FF : Command).toNat ∧
      recognised 0x49 = false := by decide

theorem witness_StepRunsTheDecodedCommand :
    (present (.command 0x0FF) State.reset).inputs = .command 0x0FF :: [] ∧
      (present (.command (encode (.decEnd 1))) State.reset).inputs = .command (encode (.decEnd 1)) :: [] ∧
      (10 : Nat) ≤ 16 := by decide

theorem witness_ResetEventClearsAllRegisters :
    (present .reset (regs 0xFF00000000 1 0 3)).inputs = .reset :: [] := by decide

theorem witness_NoInputChangesNothing : (regs 0xFF00000000 1 0 3).inputs = [] := by decide

/-- A state that is to present `cs` and then a reset. -/
def presenting (s : State) (cs : List Instr) : State := { s with inputs := cs.map toInput ++ [.reset] }

theorem presenting_presents (s : State) (cs : List Instr) : (presenting s cs).presents cs [.reset] := rfl

theorem witness_RunsExecuteCommandsInOrder :
    (presenting (regs 0 0 0 0) [.encPush 1, .decEnd 2]).presents [.encPush 1, .decEnd 2] [.reset] := by decide

theorem witness_ResetAbandonsPendingMessages :
    (presenting (regs 0 0 0 0) [.encPush 1]).inputs = [Instr.encPush 1].map toInput ++ .reset :: [] := by decide

theorem witness_EncPushFillsASlotOrAnswersAGroup :
    (regs 0x0001020000 3 0 0).ecnt.val < 4 ∧ (regs 0x0001020000 3 0 0).encTailZero ∧
      (regs 0x0001020300 4 0 0).eacc = 0x0001020300 ∧ (regs 0x0001020300 4 0 0).ecnt = 4 := by decide

theorem witness_EncEndFlushesThePartialGroup :
    (regs 0 0 0 0).ecnt = 0 ∧ (regs 0xFF00000000 1 0 0).ecnt ≠ 0 ∧ (regs 0xFF00000000 1 0 0).encTailZero ∧
      (regs 0xFF00000000 1 0 0).eacc = 0xFF00000000 ∧ (regs 0xFF00000000 1 0 0).ecnt = 1 := by decide

theorem witness_EncoderCommandsComputeEncode :
    (presenting (regs 0 0 7 3) [.encPush 1, .decPush 2, .encEnd 3]).encIdle ∧
      unitCommands .enc [.encPush 1, .decPush 2, .encEnd 3] = [1].map Instr.encPush ++ [.encEnd 3] ∧
      (presenting (regs 0 0 7 3) [.encPush 1, .decPush 2, .encEnd 3]).presents
        [.encPush 1, .decPush 2, .encEnd 3] [.reset] := by decide

theorem witness_EncodeMessagesAreIndependent :
    (presenting (regs 0 0 0 0) ([[1, 2], []].flatMap encodeCommands)).encIdle ∧
      (presenting (regs 0 0 0 0) ([[1, 2], []].flatMap encodeCommands)).presents
        ([[1, 2], []].flatMap encodeCommands) [.reset] := by decide

theorem witness_DecPushFillsASlotOrAnswersAGroup :
    (regs 0 0 0 6).dcnt.val < 7 ∧ (regs 0 0 0 6).decTailZero ∧ recognised 0x4F = false ∧
      (regs 0 0 0x0001020300 7).dacc = 0x0001020300 ∧ (regs 0 0 0x0001020300 7).dcnt = 7 := by decide

theorem witness_DecEndFlushesOrReportsInvalidLength :
    (regs 0 0 0 0).dcnt = 0 ∧ (regs 0 0 0 1).dcnt = 1 ∧ (regs 0 0 0 4).dcnt = 4 ∧ (regs 0 0 0 6).dcnt = 6 ∧
      (regs 0 0 0xFF00000000 2).dcnt = 2 ∧ (regs 0 0 0xFF00000000 2).dacc = 0xFF00000000 ∧
      (regs 0 0 0xFF00000000 2).decTailZero ∧ (regs 0 0 0 3).dcnt = 3 ∧ (regs 0 0 0 5).dcnt = 5 ∧
      (regs 0 0 0 7).dcnt = 7 := by decide

theorem witness_DecoderCommandsComputeDecode :
    (presenting (regs 7 3 0 0) [.decPush 1, .encPush 2, .decEnd 3]).decIdle ∧
      unitCommands .dec [.decPush 1, .encPush 2, .decEnd 3] = [1].map Instr.decPush ++ [.decEnd 3] ∧
      (presenting (regs 7 3 0 0) [.decPush 1, .encPush 2, .decEnd 3]).presents
        [.decPush 1, .encPush 2, .decEnd 3] [.reset] := by decide

theorem witness_BytesBeforeAnErrorAreTheFullGroups :
    (presenting (regs 0 0 0 0) (decodeCommands (List.replicate 9 0x41))).decIdle ∧
      (presenting (regs 0 0 0 0) (decodeCommands (List.replicate 9 0x41))).presents
        (decodeCommands (List.replicate 9 0x41)) [.reset] ∧
      (List.replicate 9 (0x41 : CharCode)).length % 8 = 1 ∧ (List.replicate 12 (0x41 : CharCode)).length % 8 = 4 ∧
      (List.replicate 6 (0x41 : CharCode)).length % 8 = 6 := by decide

theorem witness_DecodeMessagesAreIndependent :
    (presenting (regs 0 0 0 0) ([[0x41], []].flatMap decodeCommands)).decIdle ∧
      (presenting (regs 0 0 0 0) ([[0x41], []].flatMap decodeCommands)).presents
        ([[0x41], []].flatMap decodeCommands) [.reset] := by decide

theorem witness_OnlyDecEndRaisesInvalidLength :
    exec (.decEnd 0) (regs 0 0 0 4) = .next { regs 0 0 0 0 with responses := [respond true []] } ∧
      (respond true []).err = true := ⟨rfl, rfl⟩

theorem witness_ARaiseClearsTheDecUnitAndNothingElse :
    ({ regs 1 1 1 6 with inputs := [toInput (.decEnd 0), .command 0x100] } : State).dcnt = 6 ∧
      ({ regs 1 1 1 6 with inputs := [toInput (.decEnd 0), .command 0x100] } : State).inputs =
        toInput (.decEnd 0) :: .command 0x100 :: [] := by decide

theorem witness_AnEndAfterARaiseIsTheEmptyMessage : (regs 0 0 0 1).dcnt = 1 := by decide

theorem witness_EveryCommandLeavesTheOtherUnitAlone :
    (Instr.encEnd 0).unit = .enc ∧ (Instr.decEnd 0).unit = .dec := by decide

theorem witness_AResponseDependsOnItsUnitsRegistersOnly :
    (((Instr.encPush 1).unit = .enc → (regs 1 2 3 4).eacc = (regs 1 2 5 6).eacc ∧
        (regs 1 2 3 4).ecnt = (regs 1 2 5 6).ecnt) ∧
      ((Instr.encPush 1).unit = .dec → (regs 1 2 3 4).dacc = (regs 1 2 5 6).dacc ∧
        (regs 1 2 3 4).dcnt = (regs 1 2 5 6).dcnt)) ∧
    (((Instr.decPush 1).unit = .enc → (regs 1 2 3 4).eacc = (regs 5 3 3 4).eacc ∧
        (regs 1 2 3 4).ecnt = (regs 5 3 3 4).ecnt) ∧
      ((Instr.decPush 1).unit = .dec → (regs 1 2 3 4).dacc = (regs 5 3 3 4).dacc ∧
        (regs 1 2 3 4).dcnt = (regs 5 3 3 4).dcnt)) := by decide

theorem witness_ReorderingTheUnitsChangesNoResponse :
    ∀ u, unitCommands u [.encPush 1, .decPush 2] = unitCommands u [.decPush 2, .encPush 1] := by
  intro u
  cases u <;> decide

theorem witness_OnlyOwnCommandsOrResetChangeAUnit :
    step (present (.command 0x001) (regs 0 0 0 0)) =
        .next { regs 0x0100000000 1 0 0 with responses := [respond false []] } ∧
      (regs 0x0100000000 1 0 0).ecnt ≠ (regs 0 0 0 0).ecnt ∧
      step (present .reset (regs 0 0 0 3)) = .next (regs 0 0 0 0) ∧
      (regs 0 0 0 0).dcnt ≠ (regs 0 0 0 3).dcnt := ⟨rfl, by decide, rfl, by decide⟩

theorem witness_EveryStepKeepsTheRegisterInvariant : (regs 0x0102030400 4 0xFFFFFFFFE0 7).Inv := by decide

theorem witness_TheInvariantKeepsUnusedSlotsZero :
    (regs 0 0 0 0).Inv ∧ (regs 0 0 0 0).ecnt = 0 ∧ (regs 0 0 0 0).dcnt = 0 := by decide

theorem witness_EndLeavesItsUnitIdle : (regs 0 0 7 3).encIdle ∧ (regs 7 3 0 0).decIdle := by decide

theorem witness_CountsAreMessageLengthsModuloTheGroup :
    (regs 9 0 9 0).ecnt = 0 ∧ (∀ i ∈ unitCommands .enc [.encPush 1, .decPush 2], ∃ d, i = .encPush d) ∧
      (regs 9 0 9 0).dcnt = 0 ∧ (∀ i ∈ unitCommands .dec [.encPush 1, .decPush 2], ∃ d, i = .decPush d) := by
  refine ⟨rfl, ?_, rfl, ?_⟩
  · intro i h
    have : i = .encPush 1 := by simpa [unitCommands, Instr.unit] using h
    exact ⟨1, this⟩
  · intro i h
    have : i = .decPush 2 := by simpa [unitCommands, Instr.unit] using h
    exact ⟨2, this⟩

theorem witness_ResponsesKeepTheLaneRules :
    (respond false [1]).n.toNat ≤ 7 ∧ 0 < (respond false [1]).n.toNat ∧ (respond true []).err = true ∧
      (Instr.decPush 0).unit = .dec := by decide

theorem witness_ExtractAndPackAreBigEndian : xtr5 0 = xtr5 0 ∧ 7 < 8 := by decide

theorem witness_LeadingFieldsDependOnLeadingBytes :
    (([1, 2, 3, 4, 5] : List Byte).length = 5 ∧ ([1, 2, 3, 4, 6] : List Byte).length = 5 ∧ 6 ≤ 8 ∧
      ([1, 2, 3, 4, 5] : List Byte).take ((5 * 6 + 7) / 8) = ([1, 2, 3, 4, 6] : List Byte).take ((5 * 6 + 7) / 8)) ∧
    (([1, 2, 3, 4, 5, 6, 7, 8] : List Field).length = 8 ∧ ([1, 2, 3, 4, 5, 6, 7, 9] : List Field).length = 8 ∧
      4 ≤ 5 ∧ ([1, 2, 3, 4, 5, 6, 7, 8] : List Field).take ((8 * 4 + 4) / 5) =
        ([1, 2, 3, 4, 5, 6, 7, 9] : List Field).take ((8 * 4 + 4) / 5)) := by decide

theorem witness_ValueMapFollowsTheRangeTable :
    (0x32 ≤ (0x39 : CharCode).toNat ∧ (0x39 : CharCode).toNat ≤ 0x39) ∧ (0x41 ≤ (0x48 : CharCode).toNat) ∧
      (0x4A ≤ (0x4E : CharCode).toNat) ∧ (0x50 ≤ (0x5A : CharCode).toNat) ∧ (0x61 ≤ (0x68 : CharCode).toNat) ∧
      (0x6A ≤ (0x6E : CharCode).toNat) ∧ (0x70 ≤ (0x7A : CharCode).toNat) ∧ 0x7B ≤ (0x7B : CharCode).toNat := by
  decide

theorem witness_SymbolAndValueTablesAgree :
    sym 3 = sym 3 ∧ recognised 0x7A = true ∧ recognised 0x7B = false := by decide

theorem witness_TheEncoderEmitsOnlySymbols :
    (0x39 : CharCode) ∈ Codec.encode [0xFF] ∧ (Instr.encEnd 0).unit = .enc := by decide

theorem witness_TruncationKeepsTheListedBits : ([1, 2, 3, 4, 5, 6] : List Byte).length % 5 = 1 := by decide

theorem witness_DecodedLengthFollowsTheDropTable :
    ([0x41, 0x41, 0x41] : List CharCode).length % 8 ≠ 1 ∧ ([0x41, 0x41, 0x41] : List CharCode).length % 8 ≠ 4 ∧
      ([0x41, 0x41, 0x41] : List CharCode).length % 8 ≠ 6 := by decide

theorem witness_DecodeSeesValuesOnly :
    ([0x41, 0x49] : List CharCode).map val = ([0x61, 0x3D] : List CharCode).map val := by decide

theorem witness_DecodeUndoesEncodeUpToOneBit :
    ([1, 2, 3] : List Byte).length % 5 ≠ 2 ∧ ([1, 2] : List Byte) = [1] ++ [2] ∧
      ([1, 2] : List Byte).length % 5 = 2 := by decide

theorem witness_EncodeUndoesDecodeOnCanonicalTextOnly :
    Codec.decode [0x41, 0x42] = .bytes [0] ∧ ([0x41, 0x42] : List CharCode).getLast? = some 0x42 := by decide

theorem witness_AssemblerLinesStandForTheirWords :
    255 < 256 ∧ 256 ≤ 256 ∧ 0x20 ≤ '~'.toNat ∧ '~'.toNat ≤ 0x7E := by decide

theorem witness_PseudoInstructionsComputeTheTwoOperations :
    ((∀ n ∈ ([0, 255] : List Nat), n < 256) ∧
      (presenting (regs 0 0 7 3) (lineCommands (.encode [0, 255]))).encIdle ∧
      (presenting (regs 0 0 7 3) (lineCommands (.encode [0, 255]))).presents (lineCommands (.encode [0, 255]))
        [.reset]) ∧
    ((∀ c ∈ ['A', ' '], printable c = true) ∧
      (presenting (regs 7 3 0 0) (lineCommands (.decode ['A', ' ']))).decIdle ∧
      (presenting (regs 7 3 0 0) (lineCommands (.decode ['A', ' ']))).presents (lineCommands (.decode ['A', ' ']))
        [.reset]) := 
  ⟨⟨by decide, ⟨rfl, rfl⟩, presenting_presents _ _⟩, ⟨by simp [printable], ⟨rfl, rfl⟩, presenting_presents _ _⟩⟩

end Sys2Proof.Tests
end

section
/-! PROOFS. What each command does, one equation per branch of its rule (42 R113, R115; 43 R133, R135), and from these the
form that every command of a unit has: its response and the unit's new registers are a function of the unit's registers
before (10_state.md R33). -/

namespace Sys2Proof.Machine

/-! ### One equation per branch of a command -/

theorem exec_encPush_of_lt {s : State} (d : Byte) (h : s.ecnt.val < 4) :
    exec (.encPush d) s = .next (answer false [] (setEnc (putByte s.eacc s.ecnt d) (s.ecnt + 1) s)) :=
  if_pos h

theorem exec_encPush_of_not_lt {s : State} (d : Byte) (h : ¬ s.ecnt.val < 4) :
    exec (.encPush d) s =
      .next (answer false ((xtr5 (putByte s.eacc s.ecnt d)).map sym) (setEnc 0 0 s)) :=
  if_neg h

theorem exec_encEnd_of_eq_zero {s : State} (d : Byte) (h : s.ecnt = 0) :
    exec (.encEnd d) s = .next (answer false [] (setEnc 0 0 s)) :=
  if_pos h

theorem exec_encEnd_of_ne_zero {s : State} (d : Byte) (h : s.ecnt ≠ 0) :
    exec (.encEnd d) s =
      .next (answer false (((xtr5 (padBytes s.eacc s.ecnt)).map sym).take (8 - Config.encDrop s.ecnt))
        (setEnc 0 0 s)) :=
  if_neg h

theorem exec_decPush_of_lt {s : State} (d : CharCode) (h : s.dcnt.val < 7) :
    exec (.decPush d) s = .next (answer false [] (setDec (putField s.dacc s.dcnt (val d)) (s.dcnt + 1) s)) :=
  if_pos h

theorem exec_decPush_of_not_lt {s : State} (d : CharCode) (h : ¬ s.dcnt.val < 7) :
    exec (.decPush d) s = .next (answer false (split5 (putField s.dacc s.dcnt (val d))) (setDec 0 0 s)) :=
  if_neg h

theorem exec_decEnd_of_eq_zero {s : State} (d : Byte) (h : s.dcnt = 0) :
    exec (.decEnd d) s = .next (answer false [] (setDec 0 0 s)) :=
  if_pos h

theorem exec_decEnd_of_invalidLength {s : State} (d : Byte) (h : s.dcnt ≠ 0) (hinv : invalidLength s.dcnt) :
    exec (.decEnd d) s = .next (raiseInvalidLength s) :=
  (if_neg h).trans (if_pos hinv)

theorem exec_decEnd_of_valid {s : State} (d : Byte) (h : s.dcnt ≠ 0) (hinv : ¬ invalidLength s.dcnt) :
    exec (.decEnd d) s =
      .next (answer false ((split5 (padFields s.dacc s.dcnt)).take (decKept s.dcnt)) (setDec 0 0 s)) :=
  (if_neg h).trans (if_neg hinv)

/-! ### The form of every command of a unit

The response items and the new registers are chosen before the state, from the old registers alone; the rest of the state
enters only through `answer` and the unit's own writer. -/

theorem exec_enc_determined {i : Instr} (hi : i.unit = .enc) (g : Group) (c : Fin 5) :
    ∃ (items : List Byte) (g' : Group) (c' : Fin 5), ∀ s : State, s.eacc = g → s.ecnt = c →
      exec i s = .next (answer false items (setEnc g' c' s)) := by
  cases i with
  | encPush d =>
    by_cases h : c.val < 4
    · refine ⟨[], putByte g c d, c + 1, ?_⟩
      rintro s rfl rfl
      exact exec_encPush_of_lt d h
    · refine ⟨(xtr5 (putByte g c d)).map sym, 0, 0, ?_⟩
      rintro s rfl rfl
      exact exec_encPush_of_not_lt d h
  | encEnd d =>
    by_cases h : c = 0
    · exact ⟨[], 0, 0, fun s _ hc => exec_encEnd_of_eq_zero d (hc.trans h)⟩
    · refine ⟨((xtr5 (padBytes g c)).map sym).take (8 - Config.encDrop c), 0, 0, ?_⟩
      rintro s rfl rfl
      exact exec_encEnd_of_ne_zero d h
  | decPush d => nomatch hi
  | decEnd d => nomatch hi

theorem exec_dec_determined {i : Instr} (hi : i.unit = .dec) (g : Group) (c : Fin 8) :
    ∃ (err : Bool) (items : List Byte) (g' : Group) (c' : Fin 8), ∀ s : State, s.dacc = g → s.dcnt = c →
      exec i s = .next (answer err items (setDec g' c' s)) := by
  cases i with
  | encPush d => nomatch hi
  | encEnd d => nomatch hi
  | decPush d =>
    by_cases h : c.val < 7
    · refine ⟨false, [], putField g c (val d), c + 1, ?_⟩
      rintro s rfl rfl
      exact exec_decPush_of_lt d h
    · refine ⟨false, split5 (putField g c (val d)), 0, 0, ?_⟩
      rintro s rfl rfl
      exact exec_decPush_of_not_lt d h
  | decEnd d =>
    by_cases h : c = 0
    · exact ⟨false, [], 0, 0, fun s _ hc => exec_decEnd_of_eq_zero d (hc.trans h)⟩
    by_cases hinv : invalidLength c
    · refine ⟨true, [], 0, 0, ?_⟩
      rintro s - rfl
      exact exec_decEnd_of_invalidLength d h hinv
    · refine ⟨false, (split5 (padFields g c)).take (decKept c), 0, 0, ?_⟩
      rintro s rfl rfl
      exact exec_decEnd_of_valid d h hinv

/-- Settles O25: the command's unit fixes which registers determine the response and the new registers, and both states
agree on those. -/
theorem aResponseDependsOnItsUnitsRegistersOnly : Obligations.AResponseDependsOnItsUnitsRegistersOnly := by
  intro i s s' henc hdec
  cases hi : i.unit with
  | enc =>
    obtain ⟨hacc, hcnt⟩ := henc hi
    obtain ⟨items, g, c, hexec⟩ := exec_enc_determined hi s'.eacc s'.ecnt
    exact ⟨_, _, respond false items, hexec s hacc hcnt, hexec s' rfl rfl, rfl, rfl, fun _ => ⟨rfl, rfl⟩, nofun⟩
  | dec =>
    obtain ⟨hacc, hcnt⟩ := hdec hi
    obtain ⟨err, items, g, c, hexec⟩ := exec_dec_determined hi s'.dacc s'.dcnt
    exact ⟨_, _, respond err items, hexec s hacc hcnt, hexec s' rfl rfl, rfl, rfl, nofun, fun _ => ⟨rfl, rfl⟩⟩

end Sys2Proof.Machine
end

section
/-! PROOFS. Command words and steps (30_encoding.md R70, R72, R75): the unit and end bits of a word name its row of the
opcode map; every command gives its one response, whatever the host has still to present; a run over presented commands
is their execution in order (20_memory.md R47). -/

namespace Sys2Proof

/-! ### The fields of a command word -/

theorem fieldU_commandWord (u e : BitVec 1) (d : BitVec 8) : fieldU (commandWord u e d) = u := by
  rw [fieldU, commandWord, BitVec.extractLsb'_append_eq_of_le (by decide),
    BitVec.extractLsb'_append_eq_of_le (by decide), BitVec.extractLsb'_eq_self]

theorem fieldE_commandWord (u e : BitVec 1) (d : BitVec 8) : fieldE (commandWord u e d) = e := by
  rw [fieldE, commandWord, BitVec.extractLsb'_append_eq_of_le (by decide),
    BitVec.extractLsb'_append_eq_of_add_le (by decide), BitVec.extractLsb'_eq_self]

theorem fieldD_commandWord (u e : BitVec 1) (d : BitVec 8) : fieldD (commandWord u e d) = d :=
  BitVec.extractLsb'_append_eq_right

@[simp] theorem decode_encode (i : Instr) : decode (encode i) = i := by
  cases i <;> simp [encode, decode, fieldU_commandWord, fieldE_commandWord, fieldD_commandWord]

theorem commandWord_fields (w : Command) : commandWord (fieldU w) (fieldE w) (fieldD w) = w := by
  rw [commandWord, fieldU, fieldE, fieldD,
    BitVec.extractLsb'_append_extractLsb'_eq_extractLsb' (start₁ := 8) (start₂ := 9) rfl,
    BitVec.extractLsb'_append_extractLsb'_eq_extractLsb' (start₁ := 0) (start₂ := 8) rfl, BitVec.extractLsb'_eq_self]

/-- The mask of the opcode map keeps the fields `U` and `E`. -/
theorem commandWord_and_mask (u e : BitVec 1) (d : BitVec 8) : commandWord u e d &&& 0x300 = commandWord u e 0 := by
  have hmask : (0x300 : Command) = commandWord 1 1 0 := by decide
  have hone : ∀ b : BitVec 1, b &&& 1#1 = b := by decide
  rw [hmask]
  calc (u ++ e) ++ d &&& (1#1 ++ 1#1) ++ 0#8
      = (u &&& 1#1) ++ (e &&& 1#1) ++ (d &&& 0#8) := by rw [BitVec.and_append, BitVec.and_append]
    _ = commandWord u e 0 := by rw [hone, hone, BitVec.and_zero]; rfl

theorem commandWord_toNat (u e : BitVec 1) (d : BitVec 8) :
    (commandWord u e d).toNat = 512 * u.toNat + 256 * e.toNat + d.toNat := by
  simp only [commandWord, BitVec.toNat_append]
  rw [← Nat.shiftLeft_add_eq_or_of_lt d.isLt, ← Nat.shiftLeft_add_eq_or_of_lt e.isLt]
  omega

/-- The four rows of the opcode map (R72): by the mask, by the range of the word, and the command the word decodes to. -/
theorem decode_rows (w : Command) :
    (w &&& 0x300 = 0x000 ∧ w.toNat < 0x100 ∧ decode w = .encPush (fieldD w)) ∨
    (w &&& 0x300 = 0x100 ∧ 0x100 ≤ w.toNat ∧ w.toNat < 0x200 ∧ decode w = .encEnd (fieldD w)) ∨
    (w &&& 0x300 = 0x200 ∧ 0x200 ≤ w.toNat ∧ w.toNat < 0x300 ∧ decode w = .decPush (fieldD w)) ∨
    (w &&& 0x300 = 0x300 ∧ 0x300 ≤ w.toNat ∧ decode w = .decEnd (fieldD w)) := by
  have hbit : ∀ b : BitVec 1, b = 0 ∧ b.toNat = 0 ∨ b = 1 ∧ b.toNat = 1 := by decide
  have hD := (fieldD w).isLt
  have hmask := commandWord_and_mask (fieldU w) (fieldE w) (fieldD w)
  have hw := commandWord_toNat (fieldU w) (fieldE w) (fieldD w)
  rw [commandWord_fields] at hmask hw
  obtain ⟨hU, hu⟩ | ⟨hU, hu⟩ := hbit (fieldU w) <;> obtain ⟨hE, he⟩ | ⟨hE, he⟩ := hbit (fieldE w) <;>
    rw [hU, hE] at hmask
  · exact .inl ⟨hmask, by omega, by simp [decode, hU, hE]⟩
  · exact .inr (.inl ⟨hmask, by omega, by omega, by simp [decode, hU, hE]⟩)
  · exact .inr (.inr (.inl ⟨hmask, by omega, by omega, by simp [decode, hU, hE]⟩))
  · exact .inr (.inr (.inr ⟨hmask, by omega, by simp [decode, hU, hE]⟩))

/-- Settles O1: each word is in one row of the opcode map, and the masks of the four rows differ. -/
theorem commandWordsFollowOpcodeMap : Obligations.CommandWordsFollowOpcodeMap := by
  intro w
  change (_ ↔ decode w = .encPush (fieldD w)) ∧ (_ ↔ decode w = .encEnd (fieldD w)) ∧
    (_ ↔ decode w = .decPush (fieldD w)) ∧ (_ ↔ decode w = .decEnd (fieldD w))
  obtain ⟨hmask, -, hdec⟩ | ⟨hmask, -, -, hdec⟩ | ⟨hmask, -, -, hdec⟩ | ⟨hmask, -, hdec⟩ := decode_rows w <;>
    rw [hmask, hdec] <;> simp

theorem decode_eq_encEnd {w : Command} (hlo : 0x100 ≤ w.toNat) (hhi : w.toNat ≤ 0x1FF) :
    decode w = .encEnd (fieldD w) := by
  obtain ⟨-, hlt, -⟩ | ⟨-, -, -, hdec⟩ | ⟨-, hge, -⟩ | ⟨-, hge, -⟩ := decode_rows w
  · omega
  · exact hdec
  · omega
  · omega

theorem decode_eq_decEnd {w : Command} (hlo : 0x300 ≤ w.toNat) : decode w = .decEnd (fieldD w) := by
  obtain ⟨-, hlt, -⟩ | ⟨-, -, hlt, -⟩ | ⟨-, -, hlt, -⟩ | ⟨-, -, hdec⟩ := decode_rows w
  · omega
  · omega
  · omega
  · exact hdec

namespace Machine

/-! ### Every command gives one response -/

/-- What every command does whatever its unit: it gives one response, and the inputs still to come take no part. -/
theorem exec_answers (i : Instr) (s : State) : ∃ (t : State) (r : Response),
    exec i s = .next t ∧ t.responses = s.responses ++ [r] ∧
    ∀ inputs, exec i { s with inputs := inputs } = .next { t with inputs := inputs } := by
  cases hi : i.unit with
  | enc =>
    obtain ⟨items, g, c, hexec⟩ := exec_enc_determined hi s.eacc s.ecnt
    exact ⟨_, _, hexec s rfl rfl, rfl, fun _ => hexec _ rfl rfl⟩
  | dec =>
    obtain ⟨err, items, g, c, hexec⟩ := exec_dec_determined hi s.dacc s.dcnt
    exact ⟨_, _, hexec s rfl rfl, rfl, fun _ => hexec _ rfl rfl⟩

theorem step_of_command {s : State} {w : Command} {rest : List Input} (h : s.inputs = .command w :: rest) :
    step s = exec (decode w) { s with inputs := rest } := by
  simp [step, takeInput, h]

theorem step_present_command (w : Command) (s : State) : step (present (.command w) s) = exec (decode w) s := rfl

/-- A run over the presented commands is their execution in order, with the inputs after them left (20 R47). -/
theorem run_presents {cs : List Instr} {rest : List Input} {s : State} (h : s.presents cs rest) :
    Sys2Proof.core.run cs.length s = execSeq cs { s with inputs := rest } := by
  induction cs generalizing s with
  | nil =>
    obtain rfl : s.inputs = rest := h
    rfl
  | cons i cs ih =>
    obtain ⟨t, r, -, -, hexec⟩ := exec_answers i s
    have hstep : step s = .next { t with inputs := cs.map toInput ++ rest } := by
      rw [step_of_command h, decode_encode]
      exact hexec _
    rw [List.length_cons, run_succ_of_next _ hstep, ih rfl, execSeq_cons_of_next cs (hexec rest)]

/-! ### The data of an END, and codes without a value -/

theorem exec_encEnd_data (d d' : Byte) (s : State) : exec (.encEnd d) s = exec (.encEnd d') s := rfl

theorem exec_decEnd_data (d d' : Byte) (s : State) : exec (.decEnd d) s = exec (.decEnd d') s := rfl

theorem val_of_not_recognised {c : CharCode} (h : recognised c = false) : val c = 0 := by
  unfold recognised valrom at h
  unfold val valrom
  split at h
  · cases h
  · rfl

/-- Settles O4: a word decodes by its row; both ENDs drop their data. -/
theorem noWordIsIllegalAndEndIgnoresItsData : Obligations.NoWordIsIllegalAndEndIgnoresItsData := by
  intro w s
  simp only [step_present_command]
  refine ⟨?_, ?_, ?_, fun c => val_of_not_recognised, rfl, rfl⟩
  · obtain ⟨t, r, hexec, -, -⟩ := exec_answers (decode w) s
    exact ⟨t, hexec⟩
  · rintro ⟨hlo, hhi⟩
    have hdec := decode_eq_encEnd hlo hhi
    exact ⟨⟨_, hdec⟩, by rw [hdec]; exact exec_encEnd_data _ _ s⟩
  · intro hlo
    have hdec := decode_eq_decEnd hlo
    exact ⟨⟨_, hdec⟩, by rw [hdec]; exact exec_decEnd_data _ _ s⟩

end Machine

end Sys2Proof
end

section
/-! PROOFS. Responses and symbols: where the 69-bit word holds the fields of a response (30_encoding.md R73), the rows of
the value map (R62), and that every ENC command answers symbols only (R69). -/

namespace Sys2Proof.Machine

/-! ### The fields of a response word -/

theorem word_err (r : Response) : r.word.getLsbD 68 = r.err := by
  simp only [Response.word, BitVec.getLsbD_append]
  simp

theorem word_n (r : Response) : r.word.extractLsb' 64 4 = r.n := by
  simp (disch := decide) only [Response.word, BitVec.extractLsb'_append_eq_of_le,
    BitVec.extractLsb'_append_eq_of_add_le]
  exact BitVec.extractLsb'_eq_self

theorem word_lane (r : Response) (k : Fin 8) : r.word.extractLsb' (56 - 8 * k.val) 8 = r.lanes[k] := by
  fin_cases k <;>
    simp (disch := decide) only [Response.word, BitVec.extractLsb'_append_eq_of_le,
      BitVec.extractLsb'_append_eq_of_add_le] <;>
    exact BitVec.extractLsb'_eq_self

theorem ofWord_lane (w : ResponseWord) (k : Fin 8) :
    (Response.ofWord w).lanes[k] = w.extractLsb' (56 - 8 * k.val) 8 := by
  fin_cases k <;> rfl

theorem ofWord_word (r : Response) : Response.ofWord r.word = r := by
  have hlanes : (Response.ofWord r.word).lanes = r.lanes :=
    Vector.ext fun k hk => (ofWord_lane r.word ⟨k, hk⟩).trans (word_lane r ⟨k, hk⟩)
  cases r with
  | mk err n lanes => exact Response.mk.injEq .. |>.mpr ⟨word_err _, word_n _, hlanes⟩

theorem word_ofWord (w : ResponseWord) : (Response.ofWord w).word = w := by
  have herr : BitVec.ofBool (w.getLsbD 68) = w.extractLsb' 68 1 := by
    ext i hi
    obtain rfl : i = 0 := by omega
    simp
  change BitVec.ofBool (w.getLsbD 68) ++ w.extractLsb' 64 4 ++ w.extractLsb' 56 8 ++ w.extractLsb' 48 8 ++
    w.extractLsb' 40 8 ++ w.extractLsb' 32 8 ++ w.extractLsb' 24 8 ++ w.extractLsb' 16 8 ++ w.extractLsb' 8 8 ++
    w.extractLsb' 0 8 = w
  rw [herr]
  simp (disch := decide) only [BitVec.extractLsb'_append_extractLsb'_eq_extractLsb']
  exact BitVec.extractLsb'_eq_self

/-- Settles O35: each field is the slice of the word it was appended as, and every command answers once. -/
theorem responseWordsHoldTheirFields : Obligations.ResponseWordsHoldTheirFields := by
  refine ⟨fun r => ⟨word_err r, word_n r, word_lane r, ofWord_word r⟩, word_ofWord, fun i s => ?_⟩
  obtain ⟨t, r, hexec, hresp, -⟩ := exec_answers i s
  exact ⟨t, r, hexec, hresp⟩

/-! ### The rows of the value map -/

/-- No code is in two rows of the range table. -/
theorem valromRanges_disjoint :
    ∀ r ∈ valromRanges, ∀ r' ∈ valromRanges, r.1 ≤ r'.2.1 → r'.1 ≤ r.2.1 → r = r' := by
  decide

theorem valrom_of_mem {c : CharCode} {r : Nat × Nat × Nat} (hr : r ∈ valromRanges) (hlo : r.1 ≤ c.toNat)
    (hhi : c.toNat ≤ r.2.1) : valrom c = (true, BitVec.ofNat 5 (c.toNat - r.1 + r.2.2)) := by
  unfold valrom
  cases hfind : valromRanges.find? (fun r => decide (r.1 ≤ c.toNat) && decide (c.toNat ≤ r.2.1)) with
  | none => simpa [hlo, hhi] using List.find?_eq_none.mp hfind r hr
  | some r' =>
    have hin := List.find?_some hfind
    simp only [Bool.and_eq_true, decide_eq_true_eq] at hin
    rw [valromRanges_disjoint r hr r' (List.mem_of_find?_eq_some hfind) (by omega) (by omega)]

theorem valrom_of_forall_not_mem {c : CharCode}
    (h : ∀ r ∈ valromRanges, ¬ (r.1 ≤ c.toNat ∧ c.toNat ≤ r.2.1)) : valrom c = (false, 0) := by
  have hfind : valromRanges.find? (fun r => decide (r.1 ≤ c.toNat) && decide (c.toNat ≤ r.2.1)) = none :=
    List.find?_eq_none.mpr fun r hr => by simpa using h r hr
  rw [valrom, hfind]

/-- Settles O42: each row of the statement is a row of the range table, and the last one lies between them. -/
theorem valueMapFollowsTheRangeTable : Obligations.ValueMapFollowsTheRangeTable := by
  intro c
  have hrow : ∀ r ∈ valromRanges, r.1 ≤ c.toNat ∧ c.toNat ≤ r.2.1 →
      valrom c = (true, BitVec.ofNat 5 (c.toNat - r.1 + r.2.2)) := fun r hr h => valrom_of_mem hr h.1 h.2
  simp only [valromRanges, List.forall_mem_cons] at hrow
  obtain ⟨h2, hA, hJ, hP, ha, hj, hp, -⟩ := hrow
  refine ⟨h2, hA, hJ, hP, ha, hj, hp, fun hmiss => valrom_of_forall_not_mem ?_, rfl⟩
  simp only [valromRanges, List.forall_mem_cons]
  refine ⟨?_, ?_, ?_, ?_, ?_, ?_, ?_, nofun⟩ <;> omega

/-! ### The codes of the alphabet -/

theorem isSymbol_code {a : Char} (h : a ∈ Config.alphabet) : isSymbol (Config.code a) = true :=
  List.any_eq_true.mpr ⟨a, h, beq_self_eq_true _⟩

theorem isSymbol_sym (f : Field) : isSymbol (sym f) = true := by
  have hlt : f.toNat < Config.alphabet.length := f.isLt
  unfold sym symrom
  rw [List.getD_eq_getElem _ _ hlt]
  exact isSymbol_code (List.getElem_mem hlt)

/-- The alphabet has no lower-case letter: each of its codes is below the code of `a`. -/
theorem code_toNat_lt_of_mem_alphabet : ∀ a ∈ Config.alphabet, (Config.code a).toNat < 0x61 := by
  have hall : Config.alphabet.all (fun a => (Config.code a).toNat < 0x61) = true := by decide
  simpa using hall

theorem upper_of_isSymbol {c : CharCode} (h : isSymbol c = true) : upper c = c := by
  obtain ⟨a, ha, hc⟩ := List.any_eq_true.mp h
  have hlt := code_toNat_lt_of_mem_alphabet a ha
  rw [eq_of_beq hc] at hlt
  exact if_neg (by omega)

theorem isSymbol_of_mem_map_sym {fs : List Field} {c : CharCode} (h : c ∈ fs.map sym) : isSymbol c = true := by
  obtain ⟨f, -, rfl⟩ := List.mem_map.mp h
  exact isSymbol_sym f

theorem isSymbol_of_mem_encode {b : List Byte} {c : CharCode} (h : c ∈ Codec.encode b) : isSymbol c = true := by
  obtain ⟨g, -, hc⟩ := List.mem_flatMap.mp (List.mem_of_mem_take h)
  exact isSymbol_of_mem_map_sym hc

/-- What every ENC command answers: no error, and the symbols of at most eight fields. -/
theorem exec_enc_answers_symbols {i : Instr} (hi : i.unit = .enc) (s : State) :
    ∃ (fs : List Field) (g : Group) (c : Fin 5), fs.length ≤ 8 ∧
      exec i s = .next (answer false (fs.map sym) (setEnc g c s)) := by
  cases i with
  | encPush d =>
    by_cases h : s.ecnt.val < 4
    · exact ⟨[], _, _, by simp, exec_encPush_of_lt d h⟩
    · exact ⟨_, _, _, (xtr5_length _).le, exec_encPush_of_not_lt d h⟩
  | encEnd d =>
    by_cases h : s.ecnt = 0
    · exact ⟨[], _, _, by simp, exec_encEnd_of_eq_zero d h⟩
    · refine ⟨(xtr5 (padBytes s.eacc s.ecnt)).take (8 - Config.encDrop s.ecnt), 0, 0, by simp, ?_⟩
      rw [List.map_take]
      exact exec_encEnd_of_ne_zero d h
  | decPush d => nomatch hi
  | decEnd d => nomatch hi

/-- Settles O46: the encoder's items are `SYM` of fields, in the function and in every response. -/
theorem theEncoderEmitsOnlySymbols : Obligations.TheEncoderEmitsOnlySymbols := by
  constructor
  · intro b c hc
    have hsym := isSymbol_of_mem_encode hc
    exact ⟨hsym, upper_of_isSymbol hsym⟩
  · intro i s hi
    obtain ⟨fs, g, n, hlen, hexec⟩ := exec_enc_answers_symbols hi s
    refine ⟨_, respond false (fs.map sym), hexec, rfl, rfl, fun c hc => ?_⟩
    rw [respond_items false _ (by simpa using hlen)] at hc
    have hsym := isSymbol_of_mem_map_sym hc
    exact ⟨hsym, upper_of_isSymbol hsym⟩

end Sys2Proof.Machine
end

section
/-! PROOFS. The pseudo-instructions (30_encoding.md R79). First `encode` and `decode` group by group (42 R111, 43 R131);
then what an accumulator holds in the middle of a message, and that each command of a unit moves the items it holds towards
the result of the whole message; last the messages themselves, by induction on what is still to push. -/

namespace Sys2Proof.Machine

/-! ### A group read back one slot at a time -/

theorem byteOf_join5Seq (l : List Byte) (j : Fin 5) : byteOf (join5Seq l) j = l.getD j 0 := by
  fin_cases j <;>
    simp (disch := decide) only [byteOf, join5Seq, join5, BitVec.extractLsb'_append_eq_of_le,
      BitVec.extractLsb'_append_eq_of_add_le] <;>
    exact BitVec.extractLsb'_eq_self

theorem fieldOf_pck5Seq (l : List Field) (k : Fin 8) : fieldOf (pck5Seq l) k = l.getD k 0 := by
  fin_cases k <;>
    simp (disch := decide) only [fieldOf, pck5Seq, pck5, BitVec.extractLsb'_append_eq_of_le,
      BitVec.extractLsb'_append_eq_of_add_le] <;>
    exact BitVec.extractLsb'_eq_self

theorem getD_append_zeros {w : Nat} (l : List (BitVec w)) (n i : Nat) : (l ++ zeros w n).getD i 0 = l.getD i 0 := by
  by_cases h : i < l.length
  · exact List.getD_append _ _ _ _ h
  · rw [List.getD_append_right _ _ _ _ (by omega), List.getD_eq_default l _ (by omega)]
    by_cases hn : i - l.length < n
    · exact List.getD_replicate _ hn
    · exact List.getD_eq_default _ _ (by simpa using hn)

/-- Zero padding of a partial group is what `JOIN5` does with missing bytes. -/
@[simp] theorem join5Seq_append_zeros (l : List Byte) (n : Nat) : join5Seq (l ++ zeros 8 n) = join5Seq l := by
  simp only [join5Seq, getD_append_zeros]

@[simp] theorem pck5Seq_append_zeros (l : List Field) (n : Nat) : pck5Seq (l ++ zeros 5 n) = pck5Seq l := by
  simp only [pck5Seq, getD_append_zeros]

/-! ### Encode and decode, one group at a time -/

/-- Dropping `k` items from the tail of a sequence leaves its front as it is. -/
theorem take_append_length_sub {α : Type} (a l : List α) {k : Nat} (hk : k ≤ l.length) :
    (a ++ l).take ((a ++ l).length - k) = a ++ l.take (l.length - k) := by
  rw [List.length_append, Nat.add_sub_assoc hk, List.take_length_add_append]

/-- A sequence that padding completes to one group is one chunk. -/
theorem chunks_of_length_eq {α : Type} {n : Nat} (hn : 0 < n) {l : List α} (hl : l.length = n) : chunks n l = [l] := by
  simpa using chunks_append n hn l [] hl

theorem encg_of_full {g : List Byte} (hg : g.length = 5) : Codec.encg g = (xtr5 (join5Seq g)).map sym := by
  rw [Codec.encg, join5Seq_append_zeros, hg]
  rfl

/-- Truncation takes no more than the last group of the text. -/
theorem encDrop_le_length (b : List Byte) (n : Nat) :
    Config.encDrop (Fin.ofNat 5 b.length) ≤
      ((chunks 5 (b ++ zeros 8 n)).flatMap (fun g => (xtr5 (join5Seq g)).map sym)).length := by
  cases b with
  | nil => exact Nat.zero_le _
  | cons x b =>
    have hdrop := Config.drops_fit.1 (Fin.ofNat 5 (x :: b).length)
    rw [chunks_eq 5 (by decide) _ (by simp), List.flatMap_cons, List.length_append, List.length_map, xtr5_length]
    exact (Nat.le_of_lt hdrop).trans (Nat.le_add_right _ _)

theorem encode_append_group {g : List Byte} (hg : g.length = 5) (b : List Byte) :
    Codec.encode (g ++ b) = Codec.encg g ++ Codec.encode b := by
  have hmod : (g ++ b).length % 5 = b.length % 5 := by simp [hg]
  have hdrop : Fin.ofNat 5 (g ++ b).length = Fin.ofNat 5 b.length := Fin.ext hmod
  simp only [Codec.encode, hmod, hdrop]
  rw [List.append_assoc, chunks_append 5 (by decide) g _ hg, List.flatMap_cons,
    take_append_length_sub _ _ (encDrop_le_length b _), encg_of_full hg]

theorem encode_of_short {p : List Byte} (hne : p ≠ []) (hlen : p.length < 5) : Codec.encode p = Codec.encg p := by
  have hpos := List.length_pos_of_ne_nil hne
  have hpad : (5 - p.length % 5) % 5 = 5 - p.length := by omega
  simp only [Codec.encode, Codec.encg, Codec.encKeep, hpad]
  rw [chunks_of_length_eq (by decide) (by simp; omega)]
  simp

theorem encode_length_le_of_short {p : List Byte} (hlen : p.length < 5) : (Codec.encode p).length ≤ 8 := by
  by_cases hne : p = []
  · simp [hne, Codec.encode]
  · rw [encode_of_short hne hlen, Codec.encg, List.length_take, List.length_map, xtr5_length]
    exact Nat.min_le_right _ _

/-- The result of a text whose first groups gave the bytes `bs`: an error later in the text voids them (43 R140). -/
def prependBytes (bs : List Byte) : DecodeResult → DecodeResult
  | .bytes bs' => .bytes (bs ++ bs')
  | .invalidLength => .invalidLength

@[simp] theorem prependBytes_nil (r : DecodeResult) : prependBytes [] r = r := by
  cases r <;> rfl

theorem decode_of_decDrop_eq_none {x : List CharCode} (h : Config.decDrop (Fin.ofNat 8 x.length) = none) :
    Codec.decode x = .invalidLength := by
  simp only [Codec.decode, h]

/-- Truncation takes no more than the last group of the bytes. -/
theorem decDrop_le_length (x : List CharCode) (n : Nat) {drop : Nat}
    (h : Config.decDrop (Fin.ofNat 8 x.length) = some drop) :
    drop ≤ ((chunks 8 (x.map val ++ zeros 5 n)).flatMap (fun v => split5 (pck5Seq v))).length := by
  cases x with
  | nil =>
    obtain rfl : 0 = drop := Option.some.inj h
    exact Nat.zero_le _
  | cons c x =>
    have hdrop := Config.drops_fit.2 _ _ h
    rw [chunks_eq 8 (by decide) _ (by simp), List.flatMap_cons, List.length_append, split5_length]
    exact (Nat.le_of_lt hdrop).trans (Nat.le_add_right _ _)

theorem decode_append_group {g : List CharCode} (hg : g.length = 8) (x : List CharCode) :
    Codec.decode (g ++ x) = prependBytes (split5 (pck5Seq (g.map val))) (Codec.decode x) := by
  have hmod : (g ++ x).length % 8 = x.length % 8 := by simp [hg]
  have hdrop : Fin.ofNat 8 (g ++ x).length = Fin.ofNat 8 x.length := Fin.ext hmod
  cases h : Config.decDrop (Fin.ofNat 8 x.length) with
  | none => rw [decode_of_decDrop_eq_none h, decode_of_decDrop_eq_none (hdrop ▸ h), prependBytes]
  | some drop =>
    simp only [Codec.decode, hmod, hdrop, h, prependBytes]
    rw [List.map_append, List.append_assoc, chunks_append 8 (by decide) _ _ (by simpa using hg), List.flatMap_cons,
      take_append_length_sub _ _ (decDrop_le_length x _ h)]

theorem decode_of_short {x : List CharCode} {drop : Nat} (hne : x ≠ []) (hlen : x.length < 8)
    (h : Config.decDrop (Fin.ofNat 8 x.length) = some drop) :
    Codec.decode x = .bytes ((split5 (pck5Seq (x.map val))).take (5 - drop)) := by
  have hpos := List.length_pos_of_ne_nil hne
  have hpad : (8 - x.length % 8) % 8 = 8 - x.length := by omega
  simp only [Codec.decode, hpad, h]
  rw [chunks_of_length_eq (by decide) (by simp; omega)]
  simp

/-! ### What the accumulators hold in the middle of a message -/

/-- The ENC registers `g`, `c` hold the bytes `p` of a partial group, first byte in slot 0 (10_state.md R21, R22). -/
def HoldsBytes (g : Group) (c : Fin 5) (p : List Byte) : Prop :=
  c.val = p.length ∧ ∀ j : Fin 5, j.val < p.length → byteOf g j = p.getD j 0

/-- The DEC registers `g`, `c` hold the fields `v` of a partial group, first field in slot 0 (10_state.md R23, R24). -/
def HoldsFields (g : Group) (c : Fin 8) (v : List Field) : Prop :=
  c.val = v.length ∧ ∀ k : Fin 8, k.val < v.length → fieldOf g k = v.getD k 0

theorem holdsBytes_nil (g : Group) : HoldsBytes g 0 [] := ⟨rfl, nofun⟩

theorem holdsFields_nil (g : Group) : HoldsFields g 0 [] := ⟨rfl, nofun⟩

theorem byteOf_putByte_of_holds {g : Group} {c : Fin 5} {p : List Byte} (h : HoldsBytes g c p) (x : Byte) (j : Fin 5)
    (hj : j.val < (p ++ [x]).length) : byteOf (putByte g c x) j = (p ++ [x]).getD j 0 := by
  obtain ⟨hc, hbytes⟩ := h
  rw [List.length_append, List.length_singleton] at hj
  rw [byteOf_putByte]
  by_cases hjc : j = c
  · rw [if_pos hjc, hjc, hc, List.getD_append_right _ _ _ _ (Nat.le_refl _), Nat.sub_self]
    rfl
  · have hlt : j.val < p.length := by
      have := Fin.val_ne_of_ne hjc
      omega
    rw [if_neg hjc, hbytes j hlt, List.getD_append _ _ _ _ hlt]

theorem fieldOf_putField_of_holds {g : Group} {c : Fin 8} {v : List Field} (h : HoldsFields g c v) (f : Field)
    (k : Fin 8) (hk : k.val < (v ++ [f]).length) : fieldOf (putField g c f) k = (v ++ [f]).getD k 0 := by
  obtain ⟨hc, hfields⟩ := h
  rw [List.length_append, List.length_singleton] at hk
  rw [fieldOf_putField]
  by_cases hkc : k = c
  · rw [if_pos hkc, hkc, hc, List.getD_append_right _ _ _ _ (Nat.le_refl _), Nat.sub_self]
    rfl
  · have hlt : k.val < v.length := by
      have := Fin.val_ne_of_ne hkc
      omega
    rw [if_neg hkc, hfields k hlt, List.getD_append _ _ _ _ hlt]

theorem holdsBytes_putByte {g : Group} {c : Fin 5} {p : List Byte} (h : HoldsBytes g c p) (hc : c.val < 4) (x : Byte) :
    HoldsBytes (putByte g c x) (c + 1) (p ++ [x]) := by
  refine ⟨?_, byteOf_putByte_of_holds h x⟩
  rw [Fin.val_add_one_of_lt (Fin.lt_def.mpr hc), h.1, List.length_append, List.length_singleton]

theorem holdsFields_putField {g : Group} {c : Fin 8} {v : List Field} (h : HoldsFields g c v) (hc : c.val < 7)
    (f : Field) : HoldsFields (putField g c f) (c + 1) (v ++ [f]) := by
  refine ⟨?_, fieldOf_putField_of_holds h f⟩
  rw [Fin.val_add_one_of_lt (Fin.lt_def.mpr hc), h.1, List.length_append, List.length_singleton]

/-- The fifth byte completes the group. -/
theorem putByte_eq_join5Seq {g : Group} {c : Fin 5} {p : List Byte} (h : HoldsBytes g c p) (hlen : p.length = 4)
    (x : Byte) : putByte g c x = join5Seq (p ++ [x]) :=
  group_ext_bytes fun j => by
    rw [byteOf_join5Seq, byteOf_putByte_of_holds h x j (by simp [hlen])]

/-- The eighth field completes the group. -/
theorem putField_eq_pck5Seq {g : Group} {c : Fin 8} {v : List Field} (h : HoldsFields g c v) (hlen : v.length = 7)
    (f : Field) : putField g c f = pck5Seq (v ++ [f]) :=
  group_ext_fields fun k => by
    rw [fieldOf_pck5Seq, fieldOf_putField_of_holds h f k (by simp [hlen])]

theorem padBytes_eq_join5Seq {g : Group} {c : Fin 5} {p : List Byte} (h : HoldsBytes g c p) :
    padBytes g c = join5Seq p :=
  group_ext_bytes fun j => by
    obtain ⟨hc, hbytes⟩ := h
    rw [byteOf_padBytes, byteOf_join5Seq, hc]
    split
    case isTrue hlt => exact hbytes j hlt
    case isFalse hge => exact (List.getD_eq_default _ _ (by omega)).symm

theorem padFields_eq_pck5Seq {g : Group} {c : Fin 8} {v : List Field} (h : HoldsFields g c v) :
    padFields g c = pck5Seq v :=
  group_ext_fields fun k => by
    obtain ⟨hc, hfields⟩ := h
    rw [fieldOf_padFields, fieldOf_pck5Seq, hc]
    split
    case isTrue hlt => exact hfields k hlt
    case isFalse hge => exact (List.getD_eq_default _ _ (by omega)).symm

/-! ### One command in the middle of a message -/

theorem decodeMessage_singleton_of_ok {items : List Byte} (h : items.length ≤ 8) :
    decodeMessage [respond false items] = .bytes items := by
  simp [decodeMessage, lastErr, h]

/-- A push answers the characters that are complete and holds the rest: the text of the message is their concatenation,
whatever is still to come. -/
theorem exec_encPush_of_holds {s : State} {p : List Byte} (h : HoldsBytes s.eacc s.ecnt p) (x : Byte) :
    ∃ (items : List CharCode) (g : Group) (c : Fin 5) (p' : List Byte),
      exec (.encPush x) s = .next (answer false items (setEnc g c s)) ∧ items.length ≤ 8 ∧ HoldsBytes g c p' ∧
      ∀ b, Codec.encode (p ++ x :: b) = items ++ Codec.encode (p' ++ b) := by
  by_cases hc : s.ecnt.val < 4
  · exact ⟨[], _, _, p ++ [x], exec_encPush_of_lt x hc, by simp, holdsBytes_putByte h hc x, by simp⟩
  · have hlen : p.length = 4 := by
      have := s.ecnt.isLt
      have := h.1
      omega
    refine ⟨_, 0, 0, [], exec_encPush_of_not_lt x hc, by simp, holdsBytes_nil 0, fun b => ?_⟩
    have hfull : (p ++ [x]).length = 5 := by simp [hlen]
    rw [putByte_eq_join5Seq h hlen, ← encg_of_full hfull, List.append_cons, encode_append_group hfull, List.nil_append]

/-- An END answers the text of the bytes that are held. -/
theorem exec_encEnd_of_holds {s : State} {p : List Byte} (h : HoldsBytes s.eacc s.ecnt p) (d : Byte) :
    exec (.encEnd d) s = .next (answer false (Codec.encode p) (setEnc 0 0 s)) := by
  by_cases hc : s.ecnt = 0
  · obtain rfl : p = [] := List.eq_nil_of_length_eq_zero (h.1.symm.trans (congrArg Fin.val hc))
    exact exec_encEnd_of_eq_zero d hc
  · have hlt : p.length < 5 := h.1 ▸ s.ecnt.isLt
    have hne : p ≠ [] := fun hp => hc (Fin.ext (h.1.trans (congrArg List.length hp)))
    have hcnt : Fin.ofNat 5 p.length = s.ecnt := by
      rw [← h.1]
      exact Fin.ofNat_val_eq_self _
    rw [exec_encEnd_of_ne_zero d hc, padBytes_eq_join5Seq h, encode_of_short hne hlt, Codec.encg,
      join5Seq_append_zeros, Codec.encKeep, hcnt]

/-- A push answers the bytes that are complete and holds the rest, whatever is still to come. -/
theorem exec_decPush_of_holds {s : State} {x : List CharCode} (h : HoldsFields s.dacc s.dcnt (x.map val))
    (d : CharCode) :
    ∃ (items : List Byte) (g : Group) (c : Fin 8) (x' : List CharCode),
      exec (.decPush d) s = .next (answer false items (setDec g c s)) ∧ items.length ≤ 8 ∧
      HoldsFields g c (x'.map val) ∧
      ∀ y, Codec.decode (x ++ d :: y) = prependBytes items (Codec.decode (x' ++ y)) := by
  by_cases hc : s.dcnt.val < 7
  · refine ⟨[], _, _, x ++ [d], exec_decPush_of_lt d hc, by simp, ?_, by simp⟩
    rw [List.map_append]
    exact holdsFields_putField h hc (val d)
  · have hlen : (x.map val).length = 7 := by
      have := s.dcnt.isLt
      have := h.1
      omega
    refine ⟨_, 0, 0, [], exec_decPush_of_not_lt d hc, by simp, holdsFields_nil 0, fun y => ?_⟩
    have hfull : (x ++ [d]).length = 8 := by simpa using hlen
    rw [putField_eq_pck5Seq h hlen, List.append_cons, decode_append_group hfull, List.map_append, List.nil_append]
    rfl

/-- An END answers the bytes of the characters that are held, or the error. -/
theorem exec_decEnd_of_holds {s : State} {x : List CharCode} (h : HoldsFields s.dacc s.dcnt (x.map val)) (d : Byte) :
    ∃ (err : Bool) (items : List Byte),
      exec (.decEnd d) s = .next (answer err items (setDec 0 0 s)) ∧
      decodeMessage [respond err items] = Codec.decode x := by
  have hlen : s.dcnt.val = x.length := by simpa using h.1
  by_cases hc : s.dcnt = 0
  · obtain rfl : x = [] := List.eq_nil_of_length_eq_zero (hlen.symm.trans (congrArg Fin.val hc))
    exact ⟨false, [], exec_decEnd_of_eq_zero d hc, rfl⟩
  have hne : x ≠ [] := fun hx => hc (Fin.ext (hlen.trans (congrArg List.length hx)))
  have hcnt : Fin.ofNat 8 x.length = s.dcnt := by
    rw [← hlen]
    exact Fin.ofNat_val_eq_self _
  cases hdrop : Config.decDrop s.dcnt with
  | none =>
    refine ⟨true, [], exec_decEnd_of_invalidLength d hc (by simp [invalidLength, hdrop]), ?_⟩
    rw [decode_of_decDrop_eq_none (hcnt ▸ hdrop)]
    rfl
  | some drop =>
    refine ⟨false, _, exec_decEnd_of_valid d hc (by simp [invalidLength, hdrop]), ?_⟩
    rw [decode_of_short hne (hlen ▸ s.dcnt.isLt) (hcnt ▸ hdrop), padFields_eq_pck5Seq h, decKept, hdrop,
      decodeMessage_singleton_of_ok]
    · rfl
    · simp; omega

/-! ### Whole messages -/

theorem lastErr_eq_false {rs : List Response} (h : ∀ r ∈ rs, r.err = false) : lastErr rs = false := by
  unfold lastErr
  split
  case h_1 r hr => exact h r (List.mem_of_getLast? hr)
  case h_2 => rfl

/-- Only the last response of a decode message can turn it into the error. -/
theorem decodeMessage_cons (r : Response) {rs : List Response} (hne : rs ≠ []) :
    decodeMessage (r :: rs) = prependBytes r.items (decodeMessage rs) := by
  have hlast : lastErr (r :: rs) = lastErr rs := by
    rw [lastErr, List.getLast?_cons_of_ne_nil hne, lastErr]
  rw [decodeMessage, decodeMessage, hlast, lanesOf_cons]
  split <;> rfl

theorem decodeMessage_eq_invalidLength_iff (rs : List Response) :
    decodeMessage rs = .invalidLength ↔ lastErr rs = true := by
  unfold decodeMessage
  split <;> simp_all

theorem decodeMessage_of_lastErr_eq_false {rs : List Response} (h : lastErr rs = false) :
    decodeMessage rs = .bytes (lanesOf rs) := by
  simp [decodeMessage, h]

/-- The rest `b` of a message of which the bytes `p` are held gives the lanes of the whole. -/
theorem execSeq_encodeCommands_of_holds (b : List Byte) {s : State} {p : List Byte}
    (h : HoldsBytes s.eacc s.ecnt p) :
    ∃ rs : List Response,
      execSeq (encodeCommands b) s = .next { s with eacc := 0, ecnt := 0, responses := s.responses ++ rs } ∧
      rs.length = b.length + 1 ∧ (∀ r ∈ rs, r.err = false) ∧ lanesOf rs = Codec.encode (p ++ b) := by
  induction b generalizing s p with
  | nil =>
    refine ⟨[respond false (Codec.encode p)], execSeq_cons_of_next _ (exec_encEnd_of_holds h 0), rfl, by simp, ?_⟩
    have hitems := encode_length_le_of_short (h.1 ▸ s.ecnt.isLt)
    rw [lanesOf_cons, lanesOf_nil, respond_items _ _ hitems, List.append_nil, List.append_nil]
  | cons x b ih =>
    obtain ⟨items, g, c, p', hexec, hitems, hholds, hencode⟩ := exec_encPush_of_holds h x
    obtain ⟨rs, hrun, hlen, herr, hlanes⟩ := ih (s := answer false items (setEnc g c s)) hholds
    refine ⟨respond false items :: rs, ?_, by simp [hlen], by simpa using herr, ?_⟩
    · rw [encodeCommands, List.map_cons, List.cons_append, execSeq_cons_of_next _ hexec]
      refine hrun.trans ?_
      simp [answer, setEnc]
    · rw [lanesOf_cons, respond_items _ _ hitems, hlanes, hencode]

/-- The rest `y` of a message of which the characters `x` are held gives the result of the whole. -/
theorem execSeq_decodeCommands_of_holds (y : List CharCode) {s : State} {x : List CharCode}
    (h : HoldsFields s.dacc s.dcnt (x.map val)) :
    ∃ rs : List Response,
      execSeq (decodeCommands y) s = .next { s with dacc := 0, dcnt := 0, responses := s.responses ++ rs } ∧
      rs.length = y.length + 1 ∧ decodeMessage rs = Codec.decode (x ++ y) := by
  induction y generalizing s x with
  | nil =>
    obtain ⟨err, items, hexec, hdecode⟩ := exec_decEnd_of_holds h 0
    exact ⟨[respond err items], execSeq_cons_of_next _ hexec, rfl, by rw [hdecode, List.append_nil]⟩
  | cons d y ih =>
    obtain ⟨items, g, c, x', hexec, hitems, hholds, hdecode⟩ := exec_decPush_of_holds h d
    obtain ⟨rs, hrun, hlen, hmessage⟩ := ih (s := answer false items (setDec g c s)) hholds
    refine ⟨respond false items :: rs, ?_, by simp [hlen], ?_⟩
    · rw [decodeCommands, List.map_cons, List.cons_append, execSeq_cons_of_next _ hexec]
      refine hrun.trans ?_
      simp [answer, setDec]
    · have hne : rs ≠ [] := List.ne_nil_of_length_eq_add_one hlen
      rw [decodeMessage_cons _ hne, respond_items _ _ hitems, hmessage, hdecode]

theorem encodeCommands_length (b : List Byte) : (encodeCommands b).length = b.length + 1 := by
  simp [encodeCommands]

theorem decodeCommands_length (x : List CharCode) : (decodeCommands x).length = x.length + 1 := by
  simp [decodeCommands]

/-- Running an encode message from an idle ENC unit. -/
theorem run_encodeCommands {b : List Byte} {rest : List Input} {s : State} (hidle : s.encIdle)
    (hpres : s.presents (encodeCommands b) rest) : ∃ (t : State) (rs : List Response),
      Sys2Proof.core.run (b.length + 1) s = .next t ∧ rs.length = b.length + 1 ∧
      t.responses = s.responses ++ rs ∧ lastErr rs = false ∧ lanesOf rs = Codec.encode b := by
  obtain ⟨hcnt, -⟩ := hidle
  have hrun := run_presents hpres
  rw [encodeCommands_length] at hrun
  have hholds : HoldsBytes s.eacc s.ecnt [] := hcnt ▸ holdsBytes_nil _
  obtain ⟨rs, hexec, hlen, herr, hlanes⟩ :=
    execSeq_encodeCommands_of_holds b (s := { s with inputs := rest }) hholds
  exact ⟨_, rs, hrun.trans hexec, hlen, rfl, lastErr_eq_false herr, hlanes⟩

/-- Running a decode message from an idle DEC unit. -/
theorem run_decodeCommands {x : List CharCode} {rest : List Input} {s : State} (hidle : s.decIdle)
    (hpres : s.presents (decodeCommands x) rest) : ∃ (t : State) (rs : List Response),
      Sys2Proof.core.run (x.length + 1) s = .next t ∧ rs.length = x.length + 1 ∧
      t.responses = s.responses ++ rs ∧ decodeMessage rs = Codec.decode x := by
  obtain ⟨hcnt, -⟩ := hidle
  have hrun := run_presents hpres
  rw [decodeCommands_length] at hrun
  have hholds : HoldsFields s.dacc s.dcnt (([] : List CharCode).map val) := hcnt ▸ holdsFields_nil _
  obtain ⟨rs, hexec, hlen, hmessage⟩ :=
    execSeq_decodeCommands_of_holds x (s := { s with inputs := rest }) hholds
  exact ⟨_, rs, hrun.trans hexec, hlen, rfl, hmessage⟩

theorem assembleLine_of_wellFormed {l : AsmLine} (h : l.wellFormed = true) : assembleLine l = some (lineCommands l) :=
  if_pos h

/-- Settles O56: each pseudo-instruction expands to the commands of one message, run from an idle unit. -/
theorem pseudoInstructionsComputeTheTwoOperations : Obligations.PseudoInstructionsComputeTheTwoOperations := by
  constructor
  · intro bs hbytes
    have hwf : (AsmLine.encode bs).wellFormed = true :=
      List.all_eq_true.mpr fun n hn => decide_eq_true (hbytes n hn)
    refine ⟨?_, fun s rest hidle hpres => ?_⟩
    · rw [assembleLine_of_wellFormed hwf, lineCommands, encodeCommands, List.map_map]
      rfl
    · simpa using run_encodeCommands hidle hpres
  · intro cs hprint
    have hwf : (AsmLine.decode cs).wellFormed = true := List.all_eq_true.mpr hprint
    refine ⟨?_, fun s rest hidle hpres => ?_⟩
    · rw [assembleLine_of_wellFormed hwf, lineCommands, decodeCommands, List.map_map]
      rfl
    · obtain ⟨t, rs, hrun, hlen, hresp, hmessage⟩ := run_decodeCommands hidle hpres
      rw [List.length_map] at hrun hlen
      refine ⟨t, rs, hrun, hlen, hresp, ?_, fun hok => ?_⟩
      · rw [← hmessage, decodeMessage_eq_invalidLength_iff]
      · rw [← hmessage, decodeMessage_of_lastErr_eq_false hok]

end Sys2Proof.Machine
end

section
/-! PROOFS. The group functions of 40_field_extract.md: `XTR5` and `SPLIT5` item by item, and every slice and
concatenation as an integer (R90 to R93, R95). -/

namespace Sys2Proof.Machine

/-! ### Slices and concatenations as integers -/

/-- Appending is exact in integers: the low part is within its width, so there is no carry (R95). -/
theorem toNat_append_eq_mul_add {m n : Nat} (x : BitVec m) (y : BitVec n) :
    (x ++ y).toNat = x.toNat * 2 ^ n + y.toNat := by
  rw [BitVec.toNat_append, ← Nat.shiftLeft_add_eq_or_of_lt y.isLt, Nat.shiftLeft_eq]

theorem toNat_byteOf (g : Group) (j : Nat) : (byteOf g j).toNat = g.toNat / 2 ^ (32 - 8 * j) % 256 := by
  rw [byteOf, BitVec.extractLsb'_toNat, Nat.shiftRight_eq_div_pow]

theorem toNat_fieldOf (g : Group) (k : Nat) : (fieldOf g k).toNat = g.toNat / 2 ^ (35 - 5 * k) % 32 := by
  rw [fieldOf, BitVec.extractLsb'_toNat, Nat.shiftRight_eq_div_pow]

/-- The weights of the bytes, from Horner's form of the concatenation. -/
theorem toNat_join5 (b0 b1 b2 b3 b4 : Byte) :
    (join5 b0 b1 b2 b3 b4).toNat =
      b0.toNat * 2 ^ 32 + b1.toNat * 2 ^ 24 + b2.toNat * 2 ^ 16 + b3.toNat * 2 ^ 8 + b4.toNat := by
  simp only [join5, toNat_append_eq_mul_add]
  ring

/-- The weights of the fields, from Horner's form of the concatenation. -/
theorem toNat_pck5 (f0 f1 f2 f3 f4 f5 f6 f7 : Field) :
    (pck5 f0 f1 f2 f3 f4 f5 f6 f7).toNat =
      f0.toNat * 2 ^ 35 + f1.toNat * 2 ^ 30 + f2.toNat * 2 ^ 25 + f3.toNat * 2 ^ 20 + f4.toNat * 2 ^ 15 +
        f5.toNat * 2 ^ 10 + f6.toNat * 2 ^ 5 + f7.toNat := by
  simp only [pck5, toNat_append_eq_mul_add]
  ring

/-! ### The items of `SPLIT5` and of `XTR5` -/

theorem split5_getElem? (g : Group) {j : Nat} (hj : j < 5) : (split5 g)[j]? = some (byteOf g j) := by
  interval_cases j <;> rfl

theorem xtr5_getElem? (g : Group) {k : Nat} (hk : k < 8) : (xtr5 g)[k]? = some (fieldOf g k) := by
  interval_cases k <;> rfl

theorem split5_getD (g : Group) {j : Nat} (hj : j < 5) : (split5 g).getD j 0 = byteOf g j := by
  rw [List.getD_eq_getElem?_getD, split5_getElem? g hj, Option.getD_some]

theorem xtr5_getD (g : Group) {k : Nat} (hk : k < 8) : (xtr5 g).getD k 0 = fieldOf g k := by
  rw [List.getD_eq_getElem?_getD, xtr5_getElem? g hk, Option.getD_some]

/-- No bit of a group is dropped: its fields determine it. -/
theorem xtr5_injective : Function.Injective xtr5 := by
  intro g g' h
  refine group_ext_fields fun k => ?_
  rw [← xtr5_getD g k.isLt, h, xtr5_getD g' k.isLt]

/-! ### The two obligations -/

/-- Settles O36: each item is a slice, and slices and concatenations are exact in integers. -/
theorem joinAndSplitAreBigEndian : Obligations.JoinAndSplitAreBigEndian := by
  refine ⟨fun b0 b1 b2 b3 b4 => ⟨toNat_join5 b0 b1 b2 b3 b4, rfl⟩,
    fun g => ⟨split5_length g, fun j hj => ⟨split5_getElem? g hj, ?_⟩⟩, by decide, by decide, by decide, by decide⟩
  rw [split5_getD g hj, toNat_byteOf]

/-- Settles O37: each item is a slice, the slices cover the group, and all forms are exact in integers. -/
theorem extractAndPackAreBigEndian : Obligations.ExtractAndPackAreBigEndian := by
  refine ⟨fun g => ⟨xtr5_length g, fun k hk => ⟨xtr5_getElem? g hk, ?_⟩⟩, fun _ _ h => xtr5_injective h,
    fun f0 f1 f2 f3 f4 f5 f6 f7 => ⟨toNat_pck5 f0 f1 f2 f3 f4 f5 f6 f7, rfl⟩,
    by decide, by decide, by decide, by decide, by decide⟩
  rw [xtr5_getD g hk, toNat_fieldOf]

end Sys2Proof.Machine
end

section
/-! PROOFS. The symbol encoder `SYM` of 41_symbol_table.md (R100): the code at each index of the alphabet, and the four
runs of consecutive codes the alphabet consists of (R61). -/

namespace Sys2Proof.Machine

/-- `SYM` never meets the default of its ROM: the alphabet has an entry at every index of five bits. -/
theorem map_code_alphabet_getElem? (f : Field) : Config.alphabet[f.toNat]?.map Config.code = some (sym f) := by
  have hlt : f.toNat < Config.alphabet.length := f.isLt
  rw [sym, symrom, List.getD_eq_getElem _ _ hlt, List.getElem?_eq_getElem hlt, Option.map_some]

/-- The codes of the alphabet in its order (R61): `A` to `H`, `J` to `N`, `P` to `Z`, then the digits 2 to 9. -/
theorem map_code_toNat_alphabet :
    Config.alphabet.map (fun a => (Config.code a).toNat) =
      List.range' 0x41 8 ++ (List.range' 0x4A 5 ++ (List.range' 0x50 11 ++ List.range' 0x32 8)) := by decide

/-- An index below the length of the first run reads that run; any other reads the rest. -/
theorem getElem?_range'_append (first len : Nat) (rest : List Nat) (i : Nat) :
    (List.range' first len ++ rest)[i]? = if i < len then some (first + i) else rest[i - len]? := by
  rw [List.getElem?_append, List.length_range']
  split
  next h => simp [h]
  next => rfl

/-- The code of a symbol is its place within its run, counted from the run's first code. -/
theorem toNat_sym (f : Field) :
    (sym f).toNat =
      if f.toNat < 8 then 0x41 + f.toNat
      else if f.toNat < 13 then 0x4A + (f.toNat - 8)
      else if f.toNat < 24 then 0x50 + (f.toNat - 13)
      else 0x32 + (f.toNat - 24) := by
  have hentry : (Config.alphabet.map (fun a => (Config.code a).toNat))[f.toNat]? = some (sym f).toNat := by
    simpa using congrArg (Option.map BitVec.toNat) (map_code_alphabet_getElem? f)
  have hlt := f.isLt
  rw [map_code_toNat_alphabet, getElem?_range'_append, getElem?_range'_append, getElem?_range'_append,
    List.getElem?_range' (by omega)] at hentry
  -- Both sides now split on the same three bounds, the one of `hentry` counting each from the run before.
  grind

/-- Settles O41: `SYM` reads the entry of its field, and the alphabet's codes run through four ranges. -/
theorem symbolTableHoldsTheAlphabet : Obligations.SymbolTableHoldsTheAlphabet :=
  fun f => ⟨rfl, map_code_alphabet_getElem? f, toNat_sym f⟩

end Sys2Proof.Machine
end

section
/-! PROOFS. The encode pipeline: the length of an encoded text (42_encode_pipeline.md R112), by groups; then the two
commands of the ENC unit as their rules state them (R113, R115): the slot a push writes, the padding of an END, and what
both come to when the slots from the count on are zero (10_state.md R26). -/

namespace Sys2Proof.Machine

/-! ### The length of an encoded text -/

theorem encg_length (g : List Byte) : (Codec.encg g).length = Codec.encKeep g.length := by
  rw [Codec.encg, List.length_take, List.length_map, xtr5_length]
  exact Nat.min_eq_left (Nat.sub_le _ _)

theorem encKeep_of_partial : ∀ c < 5, c ≠ 0 → Codec.encKeep c = [0, 2, 3, 5, 7].getD c 0 := by decide

theorem encode_length_of_short {p : List Byte} (hlen : p.length < 5) :
    (Codec.encode p).length = [0, 2, 3, 5, 7].getD p.length 0 := by
  by_cases hne : p = []
  · rw [hne]
    rfl
  · rw [encode_of_short hne hlen, encg_length, encKeep_of_partial _ hlen (by simpa using hne)]

/-- Eight characters for each full group, and those that are kept of the rest. -/
theorem encode_length (b : List Byte) :
    (Codec.encode b).length = 8 * (b.length / 5) + [0, 2, 3, 5, 7].getD (b.length % 5) 0 := by
  by_cases hlen : b.length < 5
  · rw [encode_length_of_short hlen, Nat.div_eq_of_lt hlen, Nat.mod_eq_of_lt hlen, Nat.mul_zero, Nat.zero_add]
  · have htake : (b.take 5).length = 5 := List.length_take_of_le (by omega)
    have hfull : (Codec.encg (b.take 5)).length = 8 := by rw [encg_length, htake]; rfl
    have hdiv : b.length / 5 = (b.length - 5) / 5 + 1 := by omega
    have hmod : (b.length - 5) % 5 = b.length % 5 := by omega
    calc (Codec.encode b).length
        = (Codec.encode (b.take 5 ++ b.drop 5)).length := by rw [List.take_append_drop]
      _ = 8 + (Codec.encode (b.drop 5)).length := by rw [encode_append_group htake, List.length_append, hfull]
      _ = 8 + (8 * ((b.length - 5) / 5) + [0, 2, 3, 5, 7].getD (b.length % 5) 0) := by
          rw [encode_length (b.drop 5), List.length_drop, hmod]
      _ = 8 * (b.length / 5) + [0, 2, 3, 5, 7].getD (b.length % 5) 0 := by omega
termination_by b.length
decreasing_by
  rw [List.length_drop]
  omega

/-- Settles O45: the length by groups, for each remainder of the number of bytes. -/
theorem encodedLengthFollowsTheDropTable : Obligations.EncodedLengthFollowsTheDropTable := by
  intro b
  have hlt : b.length % 5 < 5 := Nat.mod_lt _ (by decide)
  rw [encode_length b]
  generalize hr : b.length % 5 = r at hlt ⊢
  interval_cases r <;> simp <;> omega

/-! ### A write to a zero slot, the last slot, and padding of a zero tail -/

/-- Where the bits of the slice are zero, replacing them is an OR. -/
theorem replaceSlice_eq_or {w lo : Nat} {g : Group} (v : BitVec w)
    (hzero : ∀ b, lo ≤ b → b < lo + w → g.getLsbD b = false) :
    replaceSlice g lo v = g ||| (v.setWidth 40 <<< lo) := by
  have hkeep : g &&& ~~~((BitVec.allOnes w).setWidth 40 <<< lo) = g := by
    refine BitVec.eq_of_getLsbD_eq fun b hb => ?_
    by_cases hslice : lo ≤ b ∧ b < lo + w
    · simp [hzero b hslice.1 hslice.2]
    · have houtside : b < lo ∨ ¬ b - lo < w := by omega
      rcases houtside with h | h <;> simp [hb, h]
  rw [replaceSlice, hkeep]

theorem putByte_eq_or_of_encTailZero {s : State} (h : s.encTailZero) (d : Byte) :
    putByte s.eacc s.ecnt d = s.eacc ||| (d.setWidth 40 <<< (32 - 8 * s.ecnt.val)) := by
  have hc := s.ecnt.isLt
  exact replaceSlice_eq_or d fun b _ hb => h b (by omega)

/-- The fifth byte is appended to the four that are held: no bit of its slot is kept. -/
theorem putByte_last (g : Group) (d : Byte) : putByte g 4 d = g.extractLsb' 8 32 ++ d := by
  refine BitVec.eq_of_getLsbD_eq fun b hb => ?_
  rw [putByte, replaceSlice_getLsbD _ _ _ _ hb, BitVec.getLsbD_append]
  by_cases hlow : b < 8
  · simp [hlow]
  · have hb' : 8 + (b - 8) = b := by omega
    have hhigh : b - 8 < 32 := by omega
    simp [hlow, hb', hhigh]

/-- Padding a zero tail changes nothing. -/
theorem padBytes_of_encTailZero {s : State} (h : s.encTailZero) : padBytes s.eacc s.ecnt = s.eacc := by
  refine BitVec.eq_of_getLsbD_eq fun b _ => ?_
  rw [padBytes, zeroLow_getLsbD]
  split
  case isTrue hlt => exact (h b hlt).symm
  case isFalse => rfl

/-! ### The two commands of the ENC unit -/

theorem exec_encPush_of_eq_four {s : State} (d : Byte) (h : s.ecnt = 4) :
    exec (.encPush d) s =
      .next (answer false ((xtr5 (s.eacc.extractLsb' 8 32 ++ d)).map sym) (setEnc 0 0 s)) := by
  rw [exec_encPush_of_not_lt d (by simp [h]), h, putByte_last]

/-- Settles O12: a push writes its slot, which is an OR where the slot is zero; the fifth byte completes the group. -/
theorem encPushFillsASlotOrAnswersAGroup : Obligations.EncPushFillsASlotOrAnswersAGroup := by
  intro d s
  refine ⟨rfl, fun hlt => ?_, fun hfour => ⟨exec_encPush_of_eq_four d hfour, fun d' => ?_⟩, fun hacc hfour => ?_⟩
  · exact ⟨putByte s.eacc s.ecnt d, s.ecnt + 1, Fin.val_add_one_of_lt (Fin.lt_def.mpr hlt),
      byteOf_putByte s.eacc s.ecnt d, fun hzero => putByte_eq_or_of_encTailZero hzero d, exec_encPush_of_lt d hlt⟩
  · rw [execSeq_cons_of_next _ (exec_encPush_of_eq_four d hfour),
      execSeq_cons_of_next _ (exec_encEnd_of_eq_zero (s := answer false _ (setEnc 0 0 s)) d' rfl)]
    simp [answer, setEnc]
  · have hlanes : (xtr5 ((0x0001020300 : Group).extractLsb' 8 32 ++ (0x04 : Byte))).map sym =
        [0x41, 0x41, 0x41, 0x53, 0x45, 0x41, 0x32, 0x45] := by decide
    rw [exec_encPush_of_eq_four _ hfour, hacc, hlanes]
    rfl

/-- The bytes that the registers hold are the first `ECNT` byte slots. -/
theorem holdsBytes_take_split5 (g : Group) (c : Fin 5) : HoldsBytes g c ((split5 g).take c.val) := by
  have hlen : ((split5 g).take c.val).length = c.val := List.length_take_of_le c.isLt.le
  refine ⟨hlen.symm, fun j hj => ?_⟩
  rw [hlen] at hj
  rw [List.getD_eq_getElem?_getD, List.getElem?_take_of_lt hj, split5_getElem? g j.isLt, Option.getD_some]

/-- The kept characters of the padded group are `ENCG` of the bytes that are held. -/
theorem take_xtr5_padBytes_eq_encg {g : Group} {c : Fin 5} {p : List Byte} (h : HoldsBytes g c p) :
    ((xtr5 (padBytes g c)).map sym).take (8 - Config.encDrop c) = Codec.encg p := by
  rw [padBytes_eq_join5Seq h, Codec.encg, join5Seq_append_zeros, Codec.encKeep, ← h.1, Fin.ofNat_val_eq_self]

theorem eight_sub_encDrop : ∀ c : Fin 5, 8 - Config.encDrop c = [8, 2, 3, 5, 7].getD c.val 0 := by decide

/-- Settles O13: an END pads the slots from the count on and answers `ENCG` of the bytes before them. -/
theorem encEndFlushesThePartialGroup : Obligations.EncEndFlushesThePartialGroup := by
  intro d s
  refine ⟨rfl, exec_encEnd_of_eq_zero d, fun hne => ?_, fun hacc hone => ?_⟩
  · rw [← eight_sub_encDrop s.ecnt]
    exact ⟨padBytes s.eacc s.ecnt, _, byteOf_padBytes s.eacc s.ecnt, padBytes_of_encTailZero, rfl,
      take_xtr5_padBytes_eq_encg (holdsBytes_take_split5 s.eacc s.ecnt), exec_encEnd_of_ne_zero d hne⟩
  · have hlanes : ((xtr5 (padBytes 0xFF00000000 1)).map sym).take (8 - Config.encDrop 1) = [0x39, 0x36] := by decide
    rw [exec_encEnd_of_ne_zero 0 (by simp [hone]), hacc, hone, hlanes]
    rfl

end Sys2Proof.Machine
end

section
/-! PROOFS. The decode pipeline: the lengths at which `decode` fails (43_decode_pipeline.md R136); then the two commands of
the DEC unit as their rules state them (R133, R135): the slot a push writes, the value it takes for an unrecognised code,
the padding of an END, and its error. -/

namespace Sys2Proof.Machine

/-! ### The lengths without a decoding -/

/-- The drop table has no entry at three counts (30_encoding.md R67). -/
theorem decDrop_eq_none_iff : ∀ c : Fin 8, Config.decDrop c = none ↔ c.val = 1 ∨ c.val = 4 ∨ c.val = 6 := by decide

/-- The length alone decides the error: with an entry in the table the result is bytes, whatever the characters. -/
theorem decode_eq_invalidLength_iff (x : List CharCode) :
    Codec.decode x = .invalidLength ↔ Config.decDrop (Fin.ofNat 8 x.length) = none := by
  refine ⟨fun h => ?_, decode_of_decDrop_eq_none⟩
  cases hdrop : Config.decDrop (Fin.ofNat 8 x.length) with
  | none => rfl
  | some drop => simp only [Codec.decode, hdrop, reduceCtorEq] at h

/-- Settles O49: the error is a missing entry of the drop table at the length modulo 8. -/
theorem decodeFailsExactlyOnThreeLengths : Obligations.DecodeFailsExactlyOnThreeLengths :=
  ⟨fun x => (decode_eq_invalidLength_iff x).trans (decDrop_eq_none_iff (Fin.ofNat 8 x.length)), rfl, rfl⟩

/-! ### A field written to a zero slot, the last slot, and padding of a zero tail -/

theorem putField_eq_or_of_decTailZero {s : State} (h : s.decTailZero) (f : Field) :
    putField s.dacc s.dcnt f = s.dacc ||| (f.setWidth 40 <<< (35 - 5 * s.dcnt.val)) := by
  have hc := s.dcnt.isLt
  exact replaceSlice_eq_or f fun b _ hb => h b (by omega)

/-- Replacing the lowest bits appends the new ones to the bits above. -/
theorem replaceSlice_zero {w n : Nat} (hwidth : n + w = 40) (g : Group) (v : BitVec w) :
    replaceSlice g 0 v = (g.extractLsb' w n ++ v).cast hwidth := by
  refine BitVec.eq_of_getLsbD_eq fun b hb => ?_
  rw [replaceSlice_getLsbD _ _ _ _ hb, BitVec.getLsbD_cast, BitVec.getLsbD_append]
  by_cases hlow : b < w
  · simp [hlow]
  · have hb' : w + (b - w) = b := by omega
    have hhigh : b - w < n := by omega
    simp [hlow, hb', hhigh]

/-- The eighth field is appended to the seven that are held: no bit of its slot is kept. -/
theorem putField_last (g : Group) (f : Field) : putField g 7 f = g.extractLsb' 5 35 ++ f :=
  replaceSlice_zero rfl g f

/-- Zeroing bits that are zero changes nothing. -/
theorem zeroLow_eq_self {g : Group} {n : Nat} (hzero : ∀ b, b < n → g.getLsbD b = false) : zeroLow g n = g := by
  refine BitVec.eq_of_getLsbD_eq fun b _ => ?_
  rw [zeroLow_getLsbD]
  split
  case isTrue hlt => exact (hzero b hlt).symm
  case isFalse => rfl

theorem padFields_of_decTailZero {s : State} (h : s.decTailZero) : padFields s.dacc s.dcnt = s.dacc :=
  zeroLow_eq_self h

/-! ### The two commands of the DEC unit -/

theorem exec_decPush_of_eq_seven {s : State} (d : CharCode) (h : s.dcnt = 7) :
    exec (.decPush d) s = .next (answer false (split5 (s.dacc.extractLsb' 5 35 ++ val d)) (setDec 0 0 s)) := by
  rw [exec_decPush_of_not_lt d (by simp [h]), h, putField_last]

/-- A push sees the value of its character only (43_decode_pipeline.md R133). -/
theorem exec_decPush_congr_val {d d' : CharCode} (h : val d = val d') (s : State) :
    exec (.decPush d) s = exec (.decPush d') s := by
  by_cases hlt : s.dcnt.val < 7
  · rw [exec_decPush_of_lt d hlt, exec_decPush_of_lt d' hlt, h]
  · rw [exec_decPush_of_not_lt d hlt, exec_decPush_of_not_lt d' hlt, h]

/-- Settles O16: a push writes its slot, which is an OR where the slot is zero; the eighth field completes the group; and
an unrecognised code has the value of `A`. -/
theorem decPushFillsASlotOrAnswersAGroup : Obligations.DecPushFillsASlotOrAnswersAGroup := by
  intro d s
  refine ⟨rfl, fun hlt => ?_, exec_decPush_of_eq_seven d, fun hd => exec_decPush_congr_val ?_ s, fun hacc hseven => ?_⟩
  · exact ⟨putField s.dacc s.dcnt (val d), s.dcnt + 1, Fin.val_add_one_of_lt (Fin.lt_def.mpr hlt),
      fieldOf_putField s.dacc s.dcnt (val d), fun hzero => putField_eq_or_of_decTailZero hzero (val d),
      exec_decPush_of_lt d hlt⟩
  · have hA : val 0x41 = 0 := by decide
    rcases hd with rfl | hd
    · decide
    · rw [val_of_not_recognised hd, hA]
  · have hlanes : split5 ((0x0001020300 : Group).extractLsb' 5 35 ++ val 0x45) = [0x00, 0x01, 0x02, 0x03, 0x04] := by
      decide
    rw [exec_decPush_of_eq_seven _ hseven, hacc, hlanes]
    rfl

theorem invalidLength_iff : ∀ c : Fin 8, invalidLength c ↔ c = 1 ∨ c = 4 ∨ c = 6 := by decide

/-- `5 - DEC_DROP[c]` at the counts of a partial group (43_decode_pipeline.md R135). -/
theorem decKept_of_partial : ∀ c : Fin 8, c ≠ 0 → decKept c = [5, 0, 1, 2, 0, 3, 0, 4].getD c.val 0 := by decide

theorem exec_decEnd_of_decodable {s : State} (d : Byte) (h : s.dcnt = 2 ∨ s.dcnt = 3 ∨ s.dcnt = 5 ∨ s.dcnt = 7) :
    exec (.decEnd d) s =
      .next (answer false ((split5 (padFields s.dacc s.dcnt)).take ([5, 0, 1, 2, 0, 3, 0, 4].getD s.dcnt.val 0))
        (setDec 0 0 s)) := by
  have hne : s.dcnt ≠ 0 := by omega
  have hvalid : ¬ invalidLength s.dcnt := by
    rw [invalidLength_iff]
    omega
  rw [exec_decEnd_of_valid d hne hvalid, decKept_of_partial _ hne]

/-- Settles O17: an END at a partial group raises InvalidLength where the drop table has no entry, and otherwise pads the
slots from the count on and answers the bytes that are kept. -/
theorem decEndFlushesOrReportsInvalidLength : Obligations.DecEndFlushesOrReportsInvalidLength := by
  intro d s
  refine ⟨rfl, exec_decEnd_of_eq_zero d, fun hbad => ?_, fun hdec => ?_, fun hacc htwo => ?_⟩
  · exact exec_decEnd_of_invalidLength d (by omega) ((invalidLength_iff s.dcnt).mpr hbad)
  · exact ⟨padFields s.dacc s.dcnt, fieldOf_padFields s.dacc s.dcnt, padFields_of_decTailZero,
      exec_decEnd_of_decodable d hdec⟩
  · have hlanes : (split5 (padFields 0xFF00000000 2)).take ([5, 0, 1, 2, 0, 3, 0, 4].getD (2 : Fin 8).val 0) = [0xFF] := by
      decide
    rw [exec_decEnd_of_decodable 0 (.inl htwo), hacc, htwo, hlanes]
    rfl

end Sys2Proof.Machine
end

section
/-! PROOFS. The one exception (60_exceptions.md): which commands raise InvalidLength and what every other command answers
(R150, R151); and what a raise leaves for the command after it (R155). -/

namespace Sys2Proof.Machine

/-! ### The cause of the exception -/

/-- The cause of InvalidLength (60_exceptions.md R151). -/
def RaisesInvalidLength (i : Instr) (s : State) : Prop :=
  (∃ d, i = .decEnd d) ∧ (s.dcnt = 1 ∨ s.dcnt = 4 ∨ s.dcnt = 6)

theorem exec_decEnd_of_undecodable {s : State} (d : Byte) (h : s.dcnt = 1 ∨ s.dcnt = 4 ∨ s.dcnt = 6) :
    exec (.decEnd d) s = .next (raiseInvalidLength s) :=
  exec_decEnd_of_invalidLength d (by omega) ((invalidLength_iff s.dcnt).mpr h)

theorem exec_of_raises {i : Instr} {s : State} (h : RaisesInvalidLength i s) :
    exec i s = .next (raiseInvalidLength s) := by
  obtain ⟨⟨d, rfl⟩, hcnt⟩ := h
  exact exec_decEnd_of_undecodable d hcnt

theorem exec_enc_answers_without_error {i : Instr} (hi : i.unit = .enc) (s : State) :
    ∃ (t : State) (items : List Byte),
      exec i s = .next t ∧ t.responses = s.responses ++ [respond false items] := by
  obtain ⟨items, g, c, hexec⟩ := exec_enc_determined hi s.eacc s.ecnt
  exact ⟨_, items, hexec s rfl rfl, rfl⟩

/-- A command without the cause of the exception answers without the error. -/
theorem exec_of_not_raises {i : Instr} {s : State} (h : ¬ RaisesInvalidLength i s) :
    ∃ (t : State) (items : List Byte),
      exec i s = .next t ∧ t.responses = s.responses ++ [respond false items] := by
  cases i with
  | encPush d => exact exec_enc_answers_without_error rfl s
  | encEnd d => exact exec_enc_answers_without_error rfl s
  | decPush d =>
    by_cases hlt : s.dcnt.val < 7
    · exact ⟨_, _, exec_decPush_of_lt d hlt, rfl⟩
    · exact ⟨_, _, exec_decPush_of_not_lt d hlt, rfl⟩
  | decEnd d =>
    have hvalid : ¬ invalidLength s.dcnt := fun hinv => h ⟨⟨d, rfl⟩, (invalidLength_iff s.dcnt).mp hinv⟩
    by_cases hzero : s.dcnt = 0
    · exact ⟨_, _, exec_decEnd_of_eq_zero d hzero, rfl⟩
    · exact ⟨_, _, exec_decEnd_of_valid d hzero hvalid, rfl⟩

/-! ### The response that reports it -/

theorem respond_nil_lane (err : Bool) (k : Fin 8) : (respond err []).lanes[k] = 0 :=
  respond_lane err [] k

/-- Only the top bit of the word is set, which is `ERR` (30_encoding.md R73). -/
theorem word_respond_true_nil : (respond true []).word = 0x100000000000000000 := by decide

/-- Settles O21: a command with the cause answers the empty error response, and a command without it answers no error. -/
theorem onlyDecEndRaisesInvalidLength : Obligations.OnlyDecEndRaisesInvalidLength := by
  intro i s
  by_cases h : RaisesInvalidLength i s
  · exact ⟨raiseInvalidLength s, respond true [], exec_of_raises h, rfl, iff_of_true rfl h,
      fun _ => ⟨rfl, respond_nil_lane true, word_respond_true_nil⟩⟩
  · obtain ⟨t, items, hexec, hresp⟩ := exec_of_not_raises h
    exact ⟨t, respond false items, hexec, hresp, iff_of_false Bool.false_ne_true h, nofun⟩

/-! ### The command after a raise -/

theorem run_one (s : State) : Sys2Proof.core.run 1 s = step s := by
  have hstep : Sys2Proof.core.step s = step s := rfl
  simp only [Host.Core.run, hstep]
  cases step s <;> rfl

/-- Settles O22: the first step is the raise, which leaves the inputs as they are, and the second takes the command `w`. -/
theorem aRaiseClearsTheDecUnitAndNothingElse : Obligations.ARaiseClearsTheDecUnitAndNothingElse := by
  intro d w rest s hcnt
  refine ⟨exec_decEnd_of_undecodable d hcnt, fun hinputs => ?_⟩
  have hraise : step s = .next (raiseInvalidLength { s with inputs := .command w :: rest }) := by
    rw [step_of_command hinputs, decode_encode]
    exact exec_decEnd_of_undecodable d hcnt
  rw [run_succ_of_next 1 hraise, run_one]
  exact step_of_command rfl

end Sys2Proof.Machine
end

section
/-! PROOFS. The reset event (70_reset_and_hazards.md R170 to R172): what a step does with it in any state, and what stands
after a run of commands that a reset ends. -/

namespace Sys2Proof.Machine

/-- Settles O8: each register's reset value is written in `State.reset`. -/
theorem registersAreZeroAfterReset : Obligations.RegistersAreZeroAfterReset :=
  ⟨rfl, rfl, rfl, rfl⟩

theorem step_of_reset {s : State} {rest : List Input} (h : s.inputs = .reset :: rest) :
    step s = .next (resetEvent { s with inputs := rest }) := by
  simp [step, takeInput, h]

/-- Settles O6: the step takes the event, whose effect is on the four registers only. -/
theorem resetEventClearsAllRegisters : Obligations.ResetEventClearsAllRegisters :=
  fun _ _ h => step_of_reset h

/-- Nothing of the registers before the event is left after it. -/
theorem resetEvent_eq (s : State) :
    resetEvent s = { State.reset with inputs := s.inputs, responses := s.responses } := rfl

/-- A run of `m + n` steps is `n` steps from where the first `m` lead. -/
theorem run_add_of_next {s t : State} {m : Nat} (n : Nat) (h : Sys2Proof.core.run m s = .next t) :
    Sys2Proof.core.run (m + n) s = Sys2Proof.core.run n t := by
  induction m generalizing s with
  | zero =>
    cases h
    rw [Nat.zero_add]
  | succ m ih =>
    cases hstep : step s with
    | next u =>
      rw [run_succ_of_next m hstep] at h
      rw [Nat.succ_add, run_succ_of_next _ hstep, ih h]
    | fault f => nomatch f
    | refused r =>
      have hrefused : Sys2Proof.core.step s = .refused r := hstep
      simp [Host.Core.run, hrefused] at h

theorem exec_keeps_inputs {i : Instr} {s t : State} (h : exec i s = .next t) : t.inputs = s.inputs := by
  obtain ⟨u, r, -, -, hexec⟩ := exec_answers i s
  obtain rfl : { u with inputs := s.inputs } = t := Host.Outcome.next.inj ((hexec s.inputs).symm.trans h)
  rfl

/-- A command sequence runs to its end, gives one response per command and takes none of the inputs. -/
theorem execSeq_answers (cs : List Instr) (s : State) : ∃ (t : State) (rs : List Response),
    execSeq cs s = .next t ∧ rs.length = cs.length ∧ t.responses = s.responses ++ rs ∧ t.inputs = s.inputs := by
  induction cs generalizing s with
  | nil => exact ⟨s, [], rfl, rfl, (List.append_nil _).symm, rfl⟩
  | cons i cs ih =>
    obtain ⟨u, r, hexec, hresp, -⟩ := exec_answers i s
    obtain ⟨t, rs, hseq, hlen, hresps, hinputs⟩ := ih u
    refine ⟨t, r :: rs, (execSeq_cons_of_next cs hexec).trans hseq, congrArg (· + 1) hlen, ?_,
      hinputs.trans (exec_keeps_inputs hexec)⟩
    rw [hresps, hresp, List.append_assoc, List.singleton_append]

/-- Settles O11: the commands run in order and leave the reset as the next input; the step that takes it keeps only the
inputs after it and the responses given. -/
theorem resetAbandonsPendingMessages : Obligations.ResetAbandonsPendingMessages := by
  intro cs rest s hpres
  obtain ⟨u, rs, hseq, hlen, hresp, hinputs⟩ := execSeq_answers cs { s with inputs := .reset :: rest }
  have hrun : Sys2Proof.core.run cs.length s = .next u := (run_presents hpres).trans hseq
  refine ⟨_, u, rs, hseq, hlen, hresp, ?_, rfl⟩
  rw [run_add_of_next 1 hrun, run_one, step_of_reset hinputs, resetEvent_eq, hresp]
  rfl

end Sys2Proof.Machine
end

section
/-! PROOFS. From word to step (30_encoding.md R70, R72, R78; 20_memory.md R47): the encoder undoes the decoder, a table
word is the command it was encoded from, and every step answers a next state (70_reset_and_hazards.md R174). -/

namespace Sys2Proof

/-! ### Words and commands -/

theorem encode_decode (w : Command) : encode (decode w) = w := by
  have hone : ∀ b : BitVec 1, b ≠ 0 → b = 1 := by decide
  conv_rhs => rw [← commandWord_fields w]
  unfold decode
  split
  case isTrue hU =>
    split
    case isTrue hE => rw [encode, hU, hE]
    case isFalse hE => rw [encode, hU, hone _ hE]
  case isFalse hU =>
    split
    case isTrue hE => rw [encode, hone _ hU, hE]
    case isFalse hE => rw [encode, hone _ hU, hone _ hE]

/-- A command word is within any number of bits from ten up. -/
theorem encode_toNat_mod {nbits : Nat} (h : 10 ≤ nbits) (i : Instr) :
    (encode i).toNat % 2 ^ nbits = (encode i).toNat :=
  Nat.mod_eq_of_lt ((encode i).isLt.trans_le (Nat.pow_le_pow_right (by decide) h))

theorem decodeTableWord_encode {nbits : Nat} (h : 10 ≤ nbits) (i : Instr) :
    decodeTableWord nbits (encode i).toNat = some i := by
  rw [decodeTableWord, encode_toNat_mod h, decodeNat, if_pos (encode i).isLt, BitVec.ofNat_toNat, BitVec.setWidth_eq,
    decode_encode]

theorem tableWord_encode {nbits : Nat} (h : 10 ≤ nbits) (i : Instr) :
    tableWord nbits (encode i).toNat = some (encode i) := by
  rw [tableWord, encode_toNat_mod h, if_pos (encode i).isLt, BitVec.ofNat_toNat, BitVec.setWidth_eq]

theorem decodeTableWord_of_wide {nbits w : Nat} (h : 1024 ≤ w % 2 ^ nbits) : decodeTableWord nbits w = none := by
  rw [decodeTableWord, decodeNat, if_neg (by omega)]

/-- Settles O2: the fields that the decoder reads make up the word, and a wider number is refused. -/
theorem everyCommandRoundTripsThroughItsWord : Obligations.EveryCommandRoundTripsThroughItsWord :=
  ⟨decode_encode, encode_decode, fun i _ h => decodeTableWord_encode h i, fun _ _ => decodeTableWord_of_wide⟩

/-- Settles O3: each word is evaluated. -/
theorem sampleWordsDecodeToTheirCommands : Obligations.SampleWordsDecodeToTheirCommands := by
  refine ⟨?_, ?_, ?_, ?_⟩ <;> decide

namespace Machine

/-! ### Steps and runs -/

theorem withFetchWord_encode {nbits : Nat} (h : 10 ≤ nbits) (i : Instr) (s : State) :
    s.withFetchWord nbits (encode i).toNat = present (toInput i) s := by
  rw [State.withFetchWord, tableWord_encode h]
  rfl

/-- Settles O5: a step executes the command of the word it takes, which for an encoded word is the one encoded. -/
theorem stepRunsTheDecodedCommand : Obligations.StepRunsTheDecodedCommand := by
  intro s rest
  refine ⟨fun w hin => step_of_command hin, fun i hin => ?_, fun i nbits hbits => ?_⟩
  · rw [step_of_command hin, decode_encode]
  · rw [withFetchWord_encode hbits, toInput, step_present_command, decode_encode]

theorem step_of_no_input {s : State} (h : s.inputs = []) : step s = .next s := by
  simp [step, takeInput, h]

/-- Settles O7: there is no input to take. -/
theorem noInputChangesNothing : Obligations.NoInputChangesNothing :=
  fun _ => step_of_no_input

/-- All that a step can do: nothing, the reset event, or the next command. -/
theorem step_cases (s : State) :
    (s.inputs = [] ∧ step s = .next s) ∨
    (∃ rest, s.inputs = .reset :: rest ∧ step s = .next (resetEvent { s with inputs := rest })) ∨
    (∃ w rest, s.inputs = .command w :: rest ∧ step s = exec (decode w) { s with inputs := rest }) := by
  cases hin : s.inputs with
  | nil => exact .inl ⟨rfl, step_of_no_input hin⟩
  | cons x rest =>
    cases x with
    | reset => exact .inr (.inl ⟨rest, rfl, step_of_reset hin⟩)
    | command w => exact .inr (.inr ⟨w, rest, rfl, step_of_command hin⟩)

theorem step_next (s : State) : ∃ t : State, step s = .next t := by
  obtain ⟨-, hstep⟩ | ⟨rest, -, hstep⟩ | ⟨w, rest, -, hstep⟩ := step_cases s
  · exact ⟨_, hstep⟩
  · exact ⟨_, hstep⟩
  · obtain ⟨t, r, hexec, -⟩ := exec_answers (decode w) { s with inputs := rest }
    exact ⟨t, hstep.trans hexec⟩

theorem run_next (n : Nat) (s : State) : ∃ t : State, Sys2Proof.core.run n s = .next t := by
  induction n generalizing s with
  | zero => exact ⟨s, rfl⟩
  | succ n ih =>
    obtain ⟨u, hstep⟩ := step_next s
    obtain ⟨t, hrun⟩ := ih u
    exact ⟨t, (run_succ_of_next n hstep).trans hrun⟩

/-- Settles O9: every input has its next state, and so every number of them. -/
theorem theBlockNeverHalts : Obligations.TheBlockNeverHalts :=
  fun n s => ⟨step_next s, run_next n s⟩

/-- Settles O10: the run over presented commands, step by step. -/
theorem runsExecuteCommandsInOrder : Obligations.RunsExecuteCommandsInOrder :=
  fun _ _ _ => run_presents

/-! ### The frame of a command and of a step -/

/-- What a command leaves alone: the inputs, the earlier responses and the other unit (10_state.md R25). -/
theorem exec_frame (i : Instr) (s : State) : ∃ (t : State) (r : Response),
    exec i s = .next t ∧ t.inputs = s.inputs ∧ t.responses = s.responses ++ [r] ∧
    (i.unit = .enc → t.dacc = s.dacc ∧ t.dcnt = s.dcnt) ∧
    (i.unit = .dec → t.eacc = s.eacc ∧ t.ecnt = s.ecnt) := by
  cases hi : i.unit with
  | enc =>
    obtain ⟨items, g, c, hexec⟩ := exec_enc_determined hi s.eacc s.ecnt
    exact ⟨_, _, hexec s rfl rfl, rfl, rfl, fun _ => ⟨rfl, rfl⟩, nofun⟩
  | dec =>
    obtain ⟨err, items, g, c, hexec⟩ := exec_dec_determined hi s.dacc s.dcnt
    exact ⟨_, _, hexec s rfl rfl, rfl, rfl, nofun, fun _ => ⟨rfl, rfl⟩⟩

/-- Settles O24: a command writes its own unit and its response. -/
theorem everyCommandLeavesTheOtherUnitAlone : Obligations.EveryCommandLeavesTheOtherUnitAlone :=
  exec_frame

theorem unit_eq_enc_of_ne_dec {i : Instr} (h : i.unit ≠ .dec) : i.unit = .enc := by
  cases i with
  | encPush d => rfl
  | encEnd d => rfl
  | decPush d => exact absurd rfl h
  | decEnd d => exact absurd rfl h

theorem unit_eq_dec_of_ne_enc {i : Instr} (h : i.unit ≠ .enc) : i.unit = .dec := by
  cases i with
  | encPush d => exact absurd rfl h
  | encEnd d => exact absurd rfl h
  | decPush d => rfl
  | decEnd d => rfl

/-- Settles O28: a step without input changes nothing, and a command of the other unit leaves the registers alone. -/
theorem onlyOwnCommandsOrResetChangeAUnit : Obligations.OnlyOwnCommandsOrResetChangeAUnit := by
  intro s t ht
  obtain ⟨-, hstep⟩ | ⟨rest, hin, -⟩ | ⟨w, rest, hin, hstep⟩ := step_cases s
  · obtain rfl : s = t := Host.Outcome.next.inj (hstep.symm.trans ht)
    simp
  · exact ⟨fun _ => ⟨_, rest, hin, .inl rfl⟩, fun _ => ⟨_, rest, hin, .inl rfl⟩⟩
  · obtain ⟨u, r, hexec, -, -, henc, hdec⟩ := exec_frame (decode w) { s with inputs := rest }
    obtain rfl : u = t := Host.Outcome.next.inj ((hstep.trans hexec).symm.trans ht)
    refine ⟨fun hne => ⟨_, rest, hin, .inr ⟨w, rfl, unit_eq_enc_of_ne_dec fun hu => ?_⟩⟩,
      fun hne => ⟨_, rest, hin, .inr ⟨w, rfl, unit_eq_dec_of_ne_enc fun hu => ?_⟩⟩⟩
    · obtain ⟨hacc, hcnt⟩ := hdec hu
      exact hne.elim (· hacc) (· hcnt)
    · obtain ⟨hacc, hcnt⟩ := henc hu
      exact hne.elim (· hacc) (· hcnt)

/-! ### The words of the assembler's lines -/

theorem byteLiteralOk_of_lt {n : Nat} (h : n < 256) : byteLiteralOk n = true := decide_eq_true h

theorem assembleLine_of_not_wellFormed {l : AsmLine} (h : l.wellFormed = false) : assembleLine l = none :=
  if_neg (by simp [h])

theorem encode_encPush_toNat {n : Nat} (h : n < 256) : (encode (.encPush (BitVec.ofNat 8 n))).toNat = n := by
  rw [encode, commandWord_toNat, BitVec.toNat_ofNat, Nat.mod_eq_of_lt h]
  simp

theorem encode_decPush_toNat {n : Nat} (h : n < 256) :
    (encode (.decPush (BitVec.ofNat 8 n))).toNat = 0x200 + n := by
  rw [encode, commandWord_toNat, BitVec.toNat_ofNat, Nat.mod_eq_of_lt h]
  simp

/-- Settles O55: a legal line is its one command, whose word holds the operand in `D`. -/
theorem assemblerLinesStandForTheirWords : Obligations.AssemblerLinesStandForTheirWords := by
  refine ⟨fun n hn => ⟨?_, ?_⟩, fun n hn => ?_, fun c hlo hhi => ?_, by decide, by decide⟩
  · rw [assembleLine_of_wellFormed (l := .encPush n) (byteLiteralOk_of_lt hn)]
    exact congrArg (fun k => some [k]) (encode_encPush_toNat hn)
  · rw [assembleLine_of_wellFormed (l := .decPush (.number n)) (byteLiteralOk_of_lt hn)]
    exact congrArg (fun k => some [k]) (encode_decPush_toNat hn)
  · have hbad : byteLiteralOk n = false := decide_eq_false (by omega)
    exact ⟨assembleLine_of_not_wellFormed hbad, assembleLine_of_not_wellFormed hbad⟩
  · have hprint : printable c = true := by simp [printable, hlo, hhi]
    rw [assembleLine_of_wellFormed (l := .decPush (.quoted c)) hprint]
    exact congrArg (fun k => some [k]) (encode_decPush_toNat (by omega))

end Machine

end Sys2Proof
end

section
/-! PROOFS. The invariant of the four registers (10_state.md R26, R27): a command either clears its unit or fills the
slot its count names, so the slots from the count on stay zero; and what the invariant says of empty counts and last
slots. -/

namespace Sys2Proof.Machine

/-! ### What a command does to its unit's registers -/

/-- An ENC command clears the ENC unit, or is a push that fills the next byte slot. -/
theorem exec_enc_registers {i : Instr} (hi : i.unit = .enc) (s : State) :
    ∃ (items : List Byte) (g : Group) (c : Fin 5), exec i s = .next (answer false items (setEnc g c s)) ∧
      (g = 0 ∧ c = 0 ∨ s.ecnt.val < 4 ∧ c.val = s.ecnt.val + 1 ∧ ∃ d, g = putByte s.eacc s.ecnt d) := by
  cases i with
  | encPush d =>
    by_cases h : s.ecnt.val < 4
    · exact ⟨_, _, _, exec_encPush_of_lt d h, .inr ⟨h, Fin.val_add_one_of_lt (Fin.lt_def.mpr h), d, rfl⟩⟩
    · exact ⟨_, _, _, exec_encPush_of_not_lt d h, .inl ⟨rfl, rfl⟩⟩
  | encEnd d =>
    by_cases h : s.ecnt = 0
    · exact ⟨_, _, _, exec_encEnd_of_eq_zero d h, .inl ⟨rfl, rfl⟩⟩
    · exact ⟨_, _, _, exec_encEnd_of_ne_zero d h, .inl ⟨rfl, rfl⟩⟩
  | decPush d => nomatch hi
  | decEnd d => nomatch hi

/-- A DEC command clears the DEC unit, or is a push that fills the next field slot. -/
theorem exec_dec_registers {i : Instr} (hi : i.unit = .dec) (s : State) :
    ∃ (err : Bool) (items : List Byte) (g : Group) (c : Fin 8), exec i s = .next (answer err items (setDec g c s)) ∧
      (g = 0 ∧ c = 0 ∨ s.dcnt.val < 7 ∧ c.val = s.dcnt.val + 1 ∧ ∃ f, g = putField s.dacc s.dcnt f) := by
  cases i with
  | encPush d => nomatch hi
  | encEnd d => nomatch hi
  | decPush d =>
    by_cases h : s.dcnt.val < 7
    · exact ⟨_, _, _, _, exec_decPush_of_lt d h, .inr ⟨h, Fin.val_add_one_of_lt (Fin.lt_def.mpr h), val d, rfl⟩⟩
    · exact ⟨_, _, _, _, exec_decPush_of_not_lt d h, .inl ⟨rfl, rfl⟩⟩
  | decEnd d =>
    by_cases h : s.dcnt = 0
    · exact ⟨_, _, _, _, exec_decEnd_of_eq_zero d h, .inl ⟨rfl, rfl⟩⟩
    by_cases hinv : invalidLength s.dcnt
    · exact ⟨true, [], 0, 0, exec_decEnd_of_invalidLength d h hinv, .inl ⟨rfl, rfl⟩⟩
    · exact ⟨_, _, _, _, exec_decEnd_of_valid d h hinv, .inl ⟨rfl, rfl⟩⟩

/-! ### The tails stay zero -/

/-- Every bit of a group below bit `n` is zero. -/
def LowZero (g : Group) (n : Nat) : Prop := ∀ b, b < n → g.getLsbD b = false

theorem lowZero_zero (n : Nat) : LowZero 0 n := fun _ _ => BitVec.getLsbD_zero

/-- Writing a slice keeps the bits below it. -/
theorem lowZero_replaceSlice {w lo : Nat} {g : Group} (h : LowZero g (lo + w)) (v : BitVec w) (hlo : lo ≤ 40) :
    LowZero (replaceSlice g lo v) lo := by
  intro b hb
  rw [replaceSlice_getLsbD _ _ _ _ (by omega), if_neg (by omega)]
  exact h b (by omega)

theorem exec_enc_keeps_tail {i : Instr} {s : State} (hi : i.unit = .enc) (h : s.encTailZero) :
    ∃ t : State, exec i s = .next t ∧ t.encTailZero ∧ t.dacc = s.dacc ∧ t.dcnt = s.dcnt := by
  obtain ⟨items, g, c, hexec, hregs⟩ := exec_enc_registers hi s
  refine ⟨_, hexec, ?_, rfl, rfl⟩
  change LowZero g (40 - 8 * c.val)
  obtain ⟨rfl, rfl⟩ | ⟨hlt, hc, d, rfl⟩ := hregs
  · exact lowZero_zero _
  · have hold : LowZero s.eacc ((32 - 8 * s.ecnt.val) + 8) := fun b hb => h b (by omega)
    have hlo : 40 - 8 * c.val = 32 - 8 * s.ecnt.val := by omega
    rw [hlo]
    exact lowZero_replaceSlice hold d (by omega)

theorem exec_dec_keeps_tail {i : Instr} {s : State} (hi : i.unit = .dec) (h : s.decTailZero) :
    ∃ t : State, exec i s = .next t ∧ t.decTailZero ∧ t.eacc = s.eacc ∧ t.ecnt = s.ecnt := by
  obtain ⟨err, items, g, c, hexec, hregs⟩ := exec_dec_registers hi s
  refine ⟨_, hexec, ?_, rfl, rfl⟩
  change LowZero g (40 - 5 * c.val)
  obtain ⟨rfl, rfl⟩ | ⟨hlt, hc, f, rfl⟩ := hregs
  · exact lowZero_zero _
  · have hold : LowZero s.dacc ((35 - 5 * s.dcnt.val) + 5) := fun b hb => h b (by omega)
    have hlo : 40 - 5 * c.val = 35 - 5 * s.dcnt.val := by omega
    rw [hlo]
    exact lowZero_replaceSlice hold f (by omega)

/-- The bound on `ECNT` is in its type (10_state.md R22). -/
theorem inv_iff (s : State) : s.Inv ↔ s.encTailZero ∧ s.decTailZero :=
  and_iff_right (Nat.le_of_lt_succ s.ecnt.isLt)

theorem exec_keeps_inv (i : Instr) {s : State} (h : s.Inv) : ∃ t : State, exec i s = .next t ∧ t.Inv := by
  obtain ⟨henc, hdec⟩ := (inv_iff s).mp h
  cases hi : i.unit with
  | enc =>
    obtain ⟨t, hexec, htail, hacc, hcnt⟩ := exec_enc_keeps_tail hi henc
    exact ⟨t, hexec, (inv_iff t).mpr ⟨htail, by rw [State.decTailZero, hacc, hcnt]; exact hdec⟩⟩
  | dec =>
    obtain ⟨t, hexec, htail, hacc, hcnt⟩ := exec_dec_keeps_tail hi hdec
    exact ⟨t, hexec, (inv_iff t).mpr ⟨by rw [State.encTailZero, hacc, hcnt]; exact henc, htail⟩⟩

theorem inv_of_zero {s : State} (henc : s.eacc = 0) (hdec : s.dacc = 0) : s.Inv := by
  rw [inv_iff, State.encTailZero, State.decTailZero, henc, hdec]
  exact ⟨lowZero_zero _, lowZero_zero _⟩

/-- Settles O30: both accumulators are zero. -/
theorem theRegisterInvariantHoldsAtReset : Obligations.TheRegisterInvariantHoldsAtReset :=
  inv_of_zero rfl rfl

/-- Settles O29: an input is a command, which keeps the invariant, or the reset event, which sets it up anew. -/
theorem everyStepKeepsTheRegisterInvariant : Obligations.EveryStepKeepsTheRegisterInvariant := by
  intro s h
  obtain ⟨-, hstep⟩ | ⟨rest, -, hstep⟩ | ⟨w, rest, -, hstep⟩ := step_cases s
  · exact ⟨s, hstep, h⟩
  · exact ⟨_, hstep, inv_of_zero rfl rfl⟩
  · obtain ⟨t, hexec, hinv⟩ := exec_keeps_inv (decode w) (s := { s with inputs := rest }) h
    exact ⟨t, hstep.trans hexec, hinv⟩

/-! ### What the invariant says of empty counts and last slots -/

theorem extractLsb'_eq_zero_of_lowZero {g : Group} {w : Nat} (h : LowZero g w) : g.extractLsb' 0 w = 0 := by
  refine BitVec.eq_of_getLsbD_eq fun b hb => ?_
  rw [BitVec.getLsbD_extractLsb', Nat.zero_add, h b hb, Bool.and_false]
  exact BitVec.getLsbD_zero.symm

theorem eq_zero_of_lowZero {g : Group} (h : LowZero g 40) : g = 0 :=
  BitVec.extractLsb'_eq_self.symm.trans (extractLsb'_eq_zero_of_lowZero h)

/-- Settles O31: the last slot is never before the count, and no slot is before an empty count. -/
theorem theInvariantKeepsUnusedSlotsZero : Obligations.TheInvariantKeepsUnusedSlotsZero := by
  intro s hinv
  obtain ⟨henc, hdec⟩ := (inv_iff s).mp hinv
  have hE := s.ecnt.isLt
  have hD := s.dcnt.isLt
  refine ⟨fun hzero => eq_zero_of_lowZero fun b hb => henc b (by simpa [hzero] using hb),
    extractLsb'_eq_zero_of_lowZero fun b hb => henc b (by omega),
    fun hzero => eq_zero_of_lowZero fun b hb => hdec b (by simpa [hzero] using hb),
    extractLsb'_eq_zero_of_lowZero fun b hb => hdec b (by omega)⟩

/-! ### Idle units -/

theorem setEnc_of_encIdle {s : State} (h : s.encIdle) : setEnc 0 0 s = s := by
  obtain ⟨hcnt, hacc⟩ := h
  rw [setEnc, ← hacc, ← hcnt]

theorem setDec_of_decIdle {s : State} (h : s.decIdle) : setDec 0 0 s = s := by
  obtain ⟨hcnt, hacc⟩ := h
  rw [setDec, ← hacc, ← hcnt]

theorem exec_encEnd_idle (d : Byte) (s : State) : ∃ t : State, exec (.encEnd d) s = .next t ∧ t.encIdle := by
  by_cases h : s.ecnt = 0
  · exact ⟨_, exec_encEnd_of_eq_zero d h, rfl, rfl⟩
  · exact ⟨_, exec_encEnd_of_ne_zero d h, rfl, rfl⟩

theorem exec_decEnd_idle (d : Byte) (s : State) : ∃ t : State, exec (.decEnd d) s = .next t ∧ t.decIdle := by
  by_cases h : s.dcnt = 0
  · exact ⟨_, exec_decEnd_of_eq_zero d h, rfl, rfl⟩
  by_cases hinv : invalidLength s.dcnt
  · exact ⟨_, exec_decEnd_of_invalidLength d h hinv, rfl, rfl⟩
  · exact ⟨_, exec_decEnd_of_valid d h hinv, rfl, rfl⟩

/-- Settles O32: every branch of an END clears its unit, which changes nothing where the unit is clear already. -/
theorem endLeavesItsUnitIdle : Obligations.EndLeavesItsUnitIdle := by
  refine ⟨⟨rfl, rfl⟩, ⟨rfl, rfl⟩, fun d s => ⟨exec_encEnd_idle d s, exec_decEnd_idle d s, fun hidle => ?_,
    fun hidle => ?_⟩⟩
  · rw [exec_encEnd_of_eq_zero d hidle.1, setEnc_of_encIdle hidle, answer]
  · rw [exec_decEnd_of_eq_zero d hidle.1, setDec_of_decIdle hidle, answer]

/-- Settles O23: the raise leaves the count at 0, where the second END answers the empty message. -/
theorem anEndAfterARaiseIsTheEmptyMessage : Obligations.AnEndAfterARaiseIsTheEmptyMessage := by
  intro d d' s hcnt
  rw [execSeq_cons_of_next _ (exec_decEnd_of_undecodable d hcnt),
    execSeq_cons_of_next _ (exec_decEnd_of_eq_zero (s := raiseInvalidLength s) d' rfl)]
  simp [answer, setDec, raiseInvalidLength]

end Sys2Proof.Machine
end

section
/-! PROOFS. The lane rules of a response (30_encoding.md R74): how many lanes each command can answer with, and that
`respond` fills no lane beyond its items. -/

namespace Sys2Proof.Machine

/-- The numbers of valid lanes a command can answer with (30_encoding.md R74). -/
def laneCounts : Instr → List Nat
  | .encPush _ => [0, 8]
  | .encEnd _ => [0, 2, 3, 5, 7]
  | .decPush _ => [0, 5]
  | .decEnd _ => [0, 1, 2, 3, 4]

theorem laneCounts_bounds {i : Instr} {n : Nat} (h : n ∈ laneCounts i) :
    n ≠ 6 ∧ n ≤ 8 ∧ (i.unit = .dec → n ≤ 5) := by
  cases i <;> simp only [laneCounts, List.mem_cons, List.not_mem_nil, or_false] at h <;>
    simp only [Instr.unit, reduceCtorEq, false_implies, true_implies, and_true] <;> omega

theorem encKept_mem : ∀ c : Fin 5, c ≠ 0 → 8 - Config.encDrop c ∈ [0, 2, 3, 5, 7] := by decide

theorem decKept_mem : ∀ c : Fin 8, c ≠ 0 → decKept c ∈ [0, 1, 2, 3, 4] := by decide

/-- The one response of a command: its number of items is one of the command's, and none come with an error. -/
theorem exec_answers_laneCounts (i : Instr) (s : State) : ∃ (t : State) (err : Bool) (items : List Byte),
    exec i s = .next t ∧ t.responses = s.responses ++ [respond err items] ∧ items.length ∈ laneCounts i ∧
    (err = true → items = []) := by
  cases i with
  | encPush d =>
    by_cases h : s.ecnt.val < 4
    · exact ⟨_, _, _, exec_encPush_of_lt d h, rfl, by simp [laneCounts], nofun⟩
    · exact ⟨_, _, _, exec_encPush_of_not_lt d h, rfl, by simp [laneCounts], nofun⟩
  | encEnd d =>
    by_cases h : s.ecnt = 0
    · exact ⟨_, _, _, exec_encEnd_of_eq_zero d h, rfl, by simp [laneCounts], nofun⟩
    · refine ⟨_, _, _, exec_encEnd_of_ne_zero d h, rfl, ?_, nofun⟩
      rw [List.length_take_of_le (by simp)]
      exact encKept_mem _ h
  | decPush d =>
    by_cases h : s.dcnt.val < 7
    · exact ⟨_, _, _, exec_decPush_of_lt d h, rfl, by simp [laneCounts], nofun⟩
    · exact ⟨_, _, _, exec_decPush_of_not_lt d h, rfl, by simp [laneCounts], nofun⟩
  | decEnd d =>
    by_cases h : s.dcnt = 0
    · exact ⟨_, _, _, exec_decEnd_of_eq_zero d h, rfl, by simp [laneCounts], nofun⟩
    by_cases hinv : invalidLength s.dcnt
    · exact ⟨_, true, [], exec_decEnd_of_invalidLength d h hinv, rfl, by simp [laneCounts], fun _ => rfl⟩
    · refine ⟨_, _, _, exec_decEnd_of_valid d h hinv, rfl, ?_, nofun⟩
      rw [List.length_take_of_le (by rw [decKept, split5_length]; exact Nat.sub_le _ _)]
      exact decKept_mem _ h

theorem respond_n_toNat (err : Bool) {items : List Byte} (h : items.length ≤ 8) :
    (respond err items).n.toNat = items.length := by
  rw [respond_n, BitVec.toNat_ofNat, Nat.mod_eq_of_lt (by omega)]

theorem respond_lane_of_le (err : Bool) {items : List Byte} {k : Fin 8} (h : items.length ≤ k.val) :
    (respond err items).lanes[k] = 0 := by
  rw [respond_lane, List.getD_eq_default _ _ h]

/-- Settles O34: the number of items of a response is one of the command's, and it decides which lanes are zero. -/
theorem responsesKeepTheLaneRules : Obligations.ResponsesKeepTheLaneRules := by
  intro i s
  obtain ⟨t, err, items, hexec, hresp, hmem, herr⟩ := exec_answers_laneCounts i s
  obtain ⟨hsix, height, hdec⟩ := laneCounts_bounds hmem
  have hn := respond_n_toNat err height
  have hcounts {i' : Instr} (hi : i = i') : (respond err items).n ∈ (laneCounts i').map (BitVec.ofNat 4) :=
    hi ▸ List.mem_map_of_mem hmem
  refine ⟨t, respond err items, hexec, hresp, fun k hk => ?_, ?_, fun k hk => ?_, fun he => ?_,
    fun d hd => by simpa [laneCounts] using hcounts hd, fun d hd => by simpa [laneCounts] using hcounts hd,
    fun d hd => by simpa [laneCounts] using hcounts hd, fun d hd => by simpa [laneCounts] using hcounts hd,
    fun h => ?_, hn.trans_le height, fun hi => ?_⟩
  · exact respond_lane_of_le err (hn.symm.trans_le hk)
  · rw [respond_items _ _ height, hn]
  · have hk' : k.val < items.length := hn ▸ hk
    rw [respond_items _ _ height, respond_lane, List.getD_eq_getElem _ _ hk', List.getElem?_eq_getElem hk']
  · rw [respond_n, herr he]
    rfl
  · exact hsix (hn.symm.trans (congrArg BitVec.toNat h))
  · have hfive := hdec hi
    exact ⟨hn.trans_le hfive, respond_lane_of_le err (k := 5) hfive,
      respond_lane_of_le err (k := 6) (hfive.trans (by decide)),
      respond_lane_of_le err (k := 7) (hfive.trans (by decide))⟩

end Sys2Proof.Machine
end

section
/-! PROOFS. The extractor and the packer against each other (40_field_extract.md R94, R96; 30_encoding.md R64): they are
inverse, so a group of bytes and its fields are the same integer; and which bits of a group the leading items are. -/

namespace Sys2Proof.Machine

/-! ### The inverse laws -/

theorem pck5Seq_xtr5 (g : Group) : pck5Seq (xtr5 g) = g :=
  group_ext_fields fun k => by rw [fieldOf_pck5Seq, xtr5_getD g k.isLt]

theorem join5Seq_split5 (g : Group) : join5Seq (split5 g) = g :=
  group_ext_bytes fun j => by rw [byteOf_join5Seq, split5_getD g j.isLt]

theorem xtr5_pck5Seq {v : List Field} (h : v.length = 8) : xtr5 (pck5Seq v) = v := by
  refine List.ext_getElem (by simp [h]) fun k hk hk' => ?_
  have hk8 : k < 8 := h ▸ hk'
  rw [← List.getD_eq_getElem _ 0 hk, xtr5_getD _ hk8, fieldOf_pck5Seq v ⟨k, hk8⟩, List.getD_eq_getElem _ 0 hk']

theorem split5_join5Seq {b : List Byte} (h : b.length = 5) : split5 (join5Seq b) = b := by
  refine List.ext_getElem (by simp [h]) fun j hj hj' => ?_
  have hj5 : j < 5 := h ▸ hj'
  rw [← List.getD_eq_getElem _ 0 hj, split5_getD _ hj5, byteOf_join5Seq b ⟨j, hj5⟩, List.getD_eq_getElem _ 0 hj']

theorem xtr5_pck5 (f0 f1 f2 f3 f4 f5 f6 f7 : Field) :
    xtr5 (pck5 f0 f1 f2 f3 f4 f5 f6 f7) = [f0, f1, f2, f3, f4, f5, f6, f7] :=
  xtr5_pck5Seq (v := [f0, f1, f2, f3, f4, f5, f6, f7]) rfl

theorem split5_join5 (b0 b1 b2 b3 b4 : Byte) : split5 (join5 b0 b1 b2 b3 b4) = [b0, b1, b2, b3, b4] :=
  split5_join5Seq (b := [b0, b1, b2, b3, b4]) rfl

/-- Settles O38: a group is its items, slot by slot, and the items of a joined group are those it was joined of. -/
theorem extractorAndPackerAreInverse : Obligations.ExtractorAndPackerAreInverse :=
  ⟨fun g => ⟨pck5Seq_xtr5 g, join5Seq_split5 g⟩, xtr5_pck5, split5_join5⟩

/-! ### The wiring -/

theorem toNat_slice {w : Nat} (x : BitVec w) (lo n : Nat) : (x.extractLsb' lo n).toNat = x.toNat / 2 ^ lo % 2 ^ n := by
  rw [BitVec.extractLsb'_toNat, Nat.shiftRight_eq_div_pow]

/-- The five bytes are the same integer as the eight fields that the extractor cuts them into. -/
theorem join5_eq_pck5_slices (b0 b1 b2 b3 b4 : Byte) :
    join5 b0 b1 b2 b3 b4 =
      pck5 (b0.extractLsb' 3 5) (b0.extractLsb' 0 3 ++ b1.extractLsb' 6 2) (b1.extractLsb' 1 5)
        (b1.extractLsb' 0 1 ++ b2.extractLsb' 4 4) (b2.extractLsb' 0 4 ++ b3.extractLsb' 7 1) (b3.extractLsb' 2 5)
        (b3.extractLsb' 0 2 ++ b4.extractLsb' 5 3) (b4.extractLsb' 0 5) := by
  apply BitVec.eq_of_toNat_eq
  have h0 := b0.isLt
  have h1 := b1.isLt
  have h2 := b2.isLt
  have h3 := b3.isLt
  have h4 := b4.isLt
  simp only [toNat_join5, toNat_pck5, toNat_append_eq_mul_add, toNat_slice]
  omega

/-- The eight fields are the same integer as the five bytes that the packer cuts them into. -/
theorem pck5_eq_join5_slices (f0 f1 f2 f3 f4 f5 f6 f7 : Field) :
    pck5 f0 f1 f2 f3 f4 f5 f6 f7 =
      join5 (f0 ++ f1.extractLsb' 2 3) (f1.extractLsb' 0 2 ++ f2 ++ f3.extractLsb' 4 1)
        (f3.extractLsb' 0 4 ++ f4.extractLsb' 1 4) (f4.extractLsb' 0 1 ++ f5 ++ f6.extractLsb' 3 2)
        (f6.extractLsb' 0 3 ++ f7) := by
  apply BitVec.eq_of_toNat_eq
  have h1 := f1.isLt
  have h3 := f3.isLt
  have h4 := f4.isLt
  have h6 := f6.isLt
  simp only [toNat_join5, toNat_pck5, toNat_append_eq_mul_add, toNat_slice]
  omega

theorem xtr5_join5 (b0 b1 b2 b3 b4 : Byte) :
    xtr5 (join5 b0 b1 b2 b3 b4) =
      [b0.extractLsb' 3 5, b0.extractLsb' 0 3 ++ b1.extractLsb' 6 2, b1.extractLsb' 1 5,
       b1.extractLsb' 0 1 ++ b2.extractLsb' 4 4, b2.extractLsb' 0 4 ++ b3.extractLsb' 7 1, b3.extractLsb' 2 5,
       b3.extractLsb' 0 2 ++ b4.extractLsb' 5 3, b4.extractLsb' 0 5] := by
  rw [join5_eq_pck5_slices, xtr5_pck5]

theorem split5_pck5 (f0 f1 f2 f3 f4 f5 f6 f7 : Field) :
    split5 (pck5 f0 f1 f2 f3 f4 f5 f6 f7) =
      [f0 ++ f1.extractLsb' 2 3, f1.extractLsb' 0 2 ++ f2 ++ f3.extractLsb' 4 1,
       f3.extractLsb' 0 4 ++ f4.extractLsb' 1 4, f4.extractLsb' 0 1 ++ f5 ++ f6.extractLsb' 3 2,
       f6.extractLsb' 0 3 ++ f7] := by
  rw [pck5_eq_join5_slices, split5_join5]

/-- Settles O39: the listed slices are the same integer as the operands, so the items are the slices. -/
theorem fieldAndByteBitsAreWiredAsListed : Obligations.FieldAndByteBitsAreWiredAsListed :=
  ⟨xtr5_join5, split5_pck5⟩

/-! ### Leading items -/

theorem join5Seq_getLsbD (l : List Byte) {b : Nat} (hb : b < 40) :
    (join5Seq l).getLsbD b = (l.getD (4 - b / 8) 0).getLsbD (b % 8) := by
  have hslot : 32 - 8 * (4 - b / 8) + b % 8 = b := by omega
  rw [← byteOf_join5Seq l ⟨4 - b / 8, by omega⟩, byteOf_getLsbD, hslot, decide_eq_true (by omega), Bool.true_and]

theorem pck5Seq_getLsbD (v : List Field) {b : Nat} (hb : b < 40) :
    (pck5Seq v).getLsbD b = (v.getD (7 - b / 5) 0).getLsbD (b % 5) := by
  have hslot : 35 - 5 * (7 - b / 5) + b % 5 = b := by omega
  rw [← fieldOf_pck5Seq v ⟨7 - b / 5, by omega⟩, fieldOf_getLsbD, hslot, decide_eq_true (by omega), Bool.true_and]

/-- Groups with the same bits from `lo` up have the same leading fields. -/
theorem take_xtr5_congr {g g' : Group} {m lo : Nat} (hm : lo ≤ 40 - 5 * m)
    (h : ∀ b, lo ≤ b → b < 40 → g.getLsbD b = g'.getLsbD b) : (xtr5 g).take m = (xtr5 g').take m := by
  refine List.ext_getElem (by simp) fun k hk hk' => ?_
  rw [List.length_take, xtr5_length] at hk
  rw [List.getElem_take, List.getElem_take, ← List.getD_eq_getElem _ 0, ← List.getD_eq_getElem _ 0,
    xtr5_getD g (by omega), xtr5_getD g' (by omega)]
  refine BitVec.eq_of_getLsbD_eq fun b hb => ?_
  rw [fieldOf_getLsbD, fieldOf_getLsbD, h _ (by omega) (by omega)]

/-- Groups with the same bits from `lo` up have the same leading bytes. -/
theorem take_split5_congr {g g' : Group} {j lo : Nat} (hj : lo ≤ 40 - 8 * j)
    (h : ∀ b, lo ≤ b → b < 40 → g.getLsbD b = g'.getLsbD b) : (split5 g).take j = (split5 g').take j := by
  refine List.ext_getElem (by simp) fun k hk hk' => ?_
  rw [List.length_take, split5_length] at hk
  rw [List.getElem_take, List.getElem_take, ← List.getD_eq_getElem _ 0, ← List.getD_eq_getElem _ 0,
    split5_getD g (by omega), split5_getD g' (by omega)]
  refine BitVec.eq_of_getLsbD_eq fun b hb => ?_
  rw [byteOf_getLsbD, byteOf_getLsbD, h _ (by omega) (by omega)]

theorem getD_eq_of_take_eq {α : Type} {l l' : List α} {n i : Nat} (h : l.take n = l'.take n) (hi : i < n) (d : α) :
    l.getD i d = l'.getD i d := by
  rw [List.getD_eq_getElem?_getD, List.getD_eq_getElem?_getD, ← List.getElem?_take_of_lt hi, h,
    List.getElem?_take_of_lt hi]

/-- The first `m` fields are bits of the first `⌈5m/8⌉` bytes. -/
theorem take_xtr5_join5Seq_congr {a a' : List Byte} {m : Nat}
    (h : a.take ((5 * m + 7) / 8) = a'.take ((5 * m + 7) / 8)) :
    (xtr5 (join5Seq a)).take m = (xtr5 (join5Seq a')).take m :=
  take_xtr5_congr (Nat.le_refl _) fun b hlo hb => by
    rw [join5Seq_getLsbD a hb, join5Seq_getLsbD a' hb, getD_eq_of_take_eq h (by omega)]

/-- The first `j` bytes are bits of the first `⌈8j/5⌉` fields. -/
theorem take_split5_pck5Seq_congr {v v' : List Field} {j : Nat}
    (h : v.take ((8 * j + 4) / 5) = v'.take ((8 * j + 4) / 5)) :
    (split5 (pck5Seq v)).take j = (split5 (pck5Seq v')).take j :=
  take_split5_congr (Nat.le_refl _) fun b hlo hb => by
    rw [pck5Seq_getLsbD v hb, pck5Seq_getLsbD v' hb, getD_eq_of_take_eq h (by omega)]

/-- Settles O40: the leading items are the top bits of the group, which the leading operands hold. -/
theorem leadingFieldsDependOnLeadingBytes : Obligations.LeadingFieldsDependOnLeadingBytes :=
  ⟨fun _ _ _ _ _ _ h => take_xtr5_join5Seq_congr h, fun _ _ _ _ _ _ h => take_split5_pck5Seq_congr h⟩

end Sys2Proof.Machine
end

section
/-! PROOFS. `SYM` and `VAL` against each other (41_symbol_table.md R101, R103): each law is a property of the tables,
checked on all fields or all codes, or follows from those that are. -/

namespace Sys2Proof.Machine

@[simp] theorem val_sym : ∀ f : Field, val (sym f) = f := by decide

theorem sym_injective : Function.Injective sym :=
  Function.LeftInverse.injective val_sym

theorem recognised_sym : ∀ f : Field, recognised (sym f) = true := by decide

theorem sym_val_of_recognised : ∀ c : CharCode, recognised c = true → sym (val c) = upper c := by decide

theorem sym_val_of_not_recognised {c : CharCode} (h : recognised c = false) : sym (val c) = 0x41 := by
  rw [val_of_not_recognised h]
  decide

theorem val_upper : ∀ c : CharCode, val (upper c) = val c := by decide

theorem val_lower : ∀ c : CharCode, val (lower c) = val c := by decide

theorem val_eq_zero_of_recognised : ∀ c : CharCode, recognised c = true → (val c = 0 ↔ c = 0x41 ∨ c = 0x61) := by decide

/-- Each code of the alphabet is the symbol of its index. -/
theorem exists_sym_of_isSymbol {c : CharCode} (h : isSymbol c = true) : ∃ f : Field, sym f = c := by
  obtain ⟨a, ha, hc⟩ := List.any_eq_true.mp h
  obtain ⟨k, hk, rfl⟩ := List.getElem_of_mem ha
  have hk32 : k < 2 ^ 5 := hk
  refine ⟨BitVec.ofNat 5 k, ?_⟩
  rw [sym, symrom, BitVec.toNat_ofNat, Nat.mod_eq_of_lt hk32, List.getD_eq_getElem _ _ hk]
  exact eq_of_beq hc

theorem sym_val_eq_self_iff (c : CharCode) : sym (val c) = c ↔ isSymbol c = true := by
  refine ⟨fun h => h ▸ isSymbol_sym (val c), fun h => ?_⟩
  obtain ⟨f, rfl⟩ := exists_sym_of_isSymbol h
  rw [val_sym]

theorem val_eq_zero_iff (c : CharCode) : val c = 0 ↔ c = 0x41 ∨ c = 0x61 ∨ recognised c = false := by
  cases h : recognised c with
  | true => simpa using val_eq_zero_of_recognised c h
  | false => simpa using val_of_not_recognised h

/-- Settles O43: `VAL` undoes `SYM`, and the symbols are what `SYM` answers. -/
theorem symbolAndValueTablesAgree : Obligations.SymbolAndValueTablesAgree :=
  ⟨fun _ _ h => sym_injective h, fun f => ⟨val_sym f, isSymbol_sym f, recognised_sym f⟩,
    fun c => ⟨sym_val_eq_self_iff c, sym_val_of_recognised c, sym_val_of_not_recognised, val_upper c, val_lower c,
      val_eq_zero_iff c⟩⟩

end Sys2Proof.Machine
end

section
/-! PROOFS. Both units in one command sequence (10_state.md R25, R36; 20_memory.md R52): a unit's registers and
responses are what its own commands alone give, so the commands of the other unit can stand anywhere between them. -/

namespace Sys2Proof.Machine

/-- Two states hold the same registers of unit `u`. -/
def State.AgreeOn (u : Which) (s t : State) : Prop :=
  (u = .enc → s.eacc = t.eacc ∧ s.ecnt = t.ecnt) ∧ (u = .dec → s.dacc = t.dacc ∧ s.dcnt = t.dcnt)

theorem agreeOn_refl (u : Which) (s : State) : s.AgreeOn u s := ⟨fun _ => ⟨rfl, rfl⟩, fun _ => ⟨rfl, rfl⟩⟩

theorem agreeOn_enc_iff {s t : State} : s.AgreeOn .enc t ↔ s.eacc = t.eacc ∧ s.ecnt = t.ecnt := by
  simp [State.AgreeOn]

theorem agreeOn_dec_iff {s t : State} : s.AgreeOn .dec t ↔ s.dacc = t.dacc ∧ s.dcnt = t.dcnt := by
  simp [State.AgreeOn]

/-- A command keeps the registers of the other unit. -/
theorem agreeOn_of_exec_of_unit_ne {i : Instr} {u : Which} {s s' t : State} (h : exec i s = .next t) (hu : i.unit ≠ u)
    (hs : s.AgreeOn u s') : t.AgreeOn u s' := by
  obtain ⟨t', r, hexec, -, -, henc, hdec⟩ := exec_frame i s
  obtain rfl : t' = t := Host.Outcome.next.inj (hexec.symm.trans h)
  cases u with
  | enc =>
    obtain ⟨hacc, hcnt⟩ := hdec (unit_eq_dec_of_ne_enc hu)
    obtain ⟨hacc', hcnt'⟩ := agreeOn_enc_iff.mp hs
    exact agreeOn_enc_iff.mpr ⟨hacc.trans hacc', hcnt.trans hcnt'⟩
  | dec =>
    obtain ⟨hacc, hcnt⟩ := henc (unit_eq_enc_of_ne_dec hu)
    obtain ⟨hacc', hcnt'⟩ := agreeOn_dec_iff.mp hs
    exact agreeOn_dec_iff.mpr ⟨hacc.trans hacc', hcnt.trans hcnt'⟩

/-- The projection of a sequence to a unit: from any state with the same registers of that unit, its commands alone give
the same responses and registers. -/
theorem execSeq_unitCommands (cs : List Instr) (s : State) : ∃ (t : State) (rs : List Response),
    execSeq cs s = .next t ∧ rs.length = cs.length ∧ t.responses = s.responses ++ rs ∧ t.inputs = s.inputs ∧
    ∀ (u : Which) (s' : State), s.AgreeOn u s' → ∃ t' : State,
      execSeq (unitCommands u cs) s' = .next t' ∧ t'.responses = s'.responses ++ unitResponses u cs rs ∧
      t.AgreeOn u t' := by
  induction cs generalizing s with
  | nil =>
    exact ⟨s, [], rfl, rfl, (List.append_nil _).symm, rfl, fun u s' hs => ⟨s', rfl, (List.append_nil _).symm, hs⟩⟩
  | cons i cs ih =>
    obtain ⟨v, r, hexec, hv, -⟩ := exec_answers i s
    obtain ⟨t, rs, hseq, hlen, hresp, hin, hunit⟩ := ih v
    refine ⟨t, r :: rs, (execSeq_cons_of_next cs hexec).trans hseq, congrArg (· + 1) hlen, ?_,
      hin.trans (exec_keeps_inputs hexec), fun u s' hs => ?_⟩
    · rw [hresp, hv, List.append_assoc, List.singleton_append]
    rw [unitCommands_cons, unitResponses_cons]
    by_cases hu : i.unit = u
    · subst hu
      obtain ⟨w, v', r', hw, hexec', hrw, hv', hsame⟩ := aResponseDependsOnItsUnitsRegistersOnly i s s' hs.1 hs.2
      obtain rfl : w = v := Host.Outcome.next.inj (hw.symm.trans hexec)
      obtain rfl : r' = r := by simpa using hrw.symm.trans hv
      obtain ⟨t', hseq', hresp', hagree⟩ := hunit i.unit v' hsame
      rw [if_pos rfl, if_pos rfl, execSeq_cons_of_next _ hexec', hseq']
      refine ⟨t', rfl, ?_, hagree⟩
      rw [hresp', hv', List.append_assoc, List.singleton_append]
    · rw [if_neg hu, if_neg hu]
      exact hunit u s' (agreeOn_of_exec_of_unit_ne hexec hu hs)

/-- Settles O27: the projection, from the same state. -/
theorem aUnitAnswersAsIfAlone : Obligations.AUnitAnswersAsIfAlone := by
  intro u cs s
  obtain ⟨t, rs, hseq, hlen, hresp, -, hunit⟩ := execSeq_unitCommands cs s
  obtain ⟨t', hseq', hresp', henc, hdec⟩ := hunit u s (agreeOn_refl u s)
  exact ⟨t, t', rs, hseq, hlen, hresp, hseq', hresp', fun hu => (henc hu).imp Eq.symm Eq.symm,
    fun hu => (hdec hu).imp Eq.symm Eq.symm⟩

/-- Settles O26: each unit's commands alone are the same run for both sequences. -/
theorem reorderingTheUnitsChangesNoResponse : Obligations.ReorderingTheUnitsChangesNoResponse := by
  intro cs cs' s hsame
  obtain ⟨t, rs, hseq, hlen, hresp, -, hunit⟩ := execSeq_unitCommands cs s
  obtain ⟨t', rs', hseq', hlen', hresp', -, hunit'⟩ := execSeq_unitCommands cs' s
  have hboth (u : Which) : t.AgreeOn u t' ∧ unitResponses u cs rs = unitResponses u cs' rs' := by
    obtain ⟨v, hv, hrv, henc, hdec⟩ := hunit u s (agreeOn_refl u s)
    obtain ⟨v', hv', hrv', henc', hdec'⟩ := hunit' u s (agreeOn_refl u s)
    rw [hsame u] at hv
    obtain rfl : v = v' := Host.Outcome.next.inj (hv.symm.trans hv')
    refine ⟨⟨fun hu => ?_, fun hu => ?_⟩, List.append_cancel_left (hrv.symm.trans hrv')⟩
    · exact ⟨(henc hu).1.trans (henc' hu).1.symm, (henc hu).2.trans (henc' hu).2.symm⟩
    · exact ⟨(hdec hu).1.trans (hdec' hu).1.symm, (hdec hu).2.trans (hdec' hu).2.symm⟩
  obtain ⟨heacc, hecnt⟩ := agreeOn_enc_iff.mp (hboth .enc).1
  obtain ⟨hdacc, hdcnt⟩ := agreeOn_dec_iff.mp (hboth .dec).1
  exact ⟨t, t', rs, rs', hseq, hseq', hlen, hlen', hresp, hresp', ⟨heacc, hecnt, hdacc, hdcnt⟩,
    fun u => (hboth u).2⟩

/-! ### Counts -/

theorem exec_encPush_ecnt (d : Byte) (s : State) :
    ∃ t : State, exec (.encPush d) s = .next t ∧ t.ecnt.val = (s.ecnt.val + 1) % 5 := by
  by_cases h : s.ecnt.val < 4
  · refine ⟨_, exec_encPush_of_lt d h, ?_⟩
    rw [answer_ecnt, setEnc_ecnt, Fin.val_add_one_of_lt (Fin.lt_def.mpr h), Nat.mod_eq_of_lt (by omega)]
  · refine ⟨_, exec_encPush_of_not_lt d h, ?_⟩
    have hfour : s.ecnt.val = 4 := by omega
    rw [answer_ecnt, setEnc_ecnt, hfour]
    rfl

theorem exec_decPush_dcnt (d : CharCode) (s : State) :
    ∃ t : State, exec (.decPush d) s = .next t ∧ t.dcnt.val = (s.dcnt.val + 1) % 8 := by
  by_cases h : s.dcnt.val < 7
  · refine ⟨_, exec_decPush_of_lt d h, ?_⟩
    rw [answer_dcnt, setDec_dcnt, Fin.val_add_one_of_lt (Fin.lt_def.mpr h), Nat.mod_eq_of_lt (by omega)]
  · refine ⟨_, exec_decPush_of_not_lt d h, ?_⟩
    have hseven : s.dcnt.val = 7 := by omega
    rw [answer_dcnt, setDec_dcnt, hseven]
    rfl

/-- A count that each command of a sequence moves on by one, modulo `n`, is moved on by their number. -/
theorem execSeq_count {n : Nat} {count : State → Nat} {cs : List Instr}
    (hpush : ∀ i ∈ cs, ∀ s, ∃ t : State, exec i s = .next t ∧ count t = (count s + 1) % n) (s : State)
    (hs : count s < n) : ∃ t : State, execSeq cs s = .next t ∧ count t = (count s + cs.length) % n := by
  induction cs generalizing s with
  | nil => exact ⟨s, rfl, (Nat.mod_eq_of_lt hs).symm⟩
  | cons i cs ih =>
    obtain ⟨u, hexec, hu⟩ := hpush i List.mem_cons_self s
    have hlt : count u < n := hu ▸ Nat.mod_lt _ (Nat.zero_lt_of_lt hs)
    obtain ⟨t, hseq, ht⟩ := ih (fun j hj => hpush j (List.mem_cons_of_mem i hj)) u hlt
    refine ⟨t, (execSeq_cons_of_next cs hexec).trans hseq, ?_⟩
    rw [ht, hu, Nat.mod_add_mod, List.length_cons, Nat.add_assoc, Nat.add_comm 1]

/-- Settles O33: each push moves its unit's count on by one, and the other unit's commands take no part. -/
theorem countsAreMessageLengthsModuloTheGroup : Obligations.CountsAreMessageLengthsModuloTheGroup := by
  intro cs s
  obtain ⟨t, rs, hseq, -, -, -, hunit⟩ := execSeq_unitCommands cs s
  refine ⟨fun hzero hpush => ⟨t, hseq, ?_⟩, fun hzero hpush => ⟨t, hseq, ?_⟩⟩
  · have hcount : ∀ i ∈ unitCommands .enc cs, ∀ s, ∃ t : State,
        exec i s = .next t ∧ t.ecnt.val = (s.ecnt.val + 1) % 5 := by
      intro i hi
      obtain ⟨d, rfl⟩ := hpush i hi
      exact exec_encPush_ecnt d
    obtain ⟨v, hv, -, hagree⟩ := hunit .enc s (agreeOn_refl _ s)
    obtain ⟨v', hv', hcnt⟩ := execSeq_count hcount s s.ecnt.isLt
    obtain rfl : v = v' := Host.Outcome.next.inj (hv.symm.trans hv')
    rw [(agreeOn_enc_iff.mp hagree).2, hcnt, hzero, Fin.val_zero, Nat.zero_add]
  · have hcount : ∀ i ∈ unitCommands .dec cs, ∀ s, ∃ t : State,
        exec i s = .next t ∧ t.dcnt.val = (s.dcnt.val + 1) % 8 := by
      intro i hi
      obtain ⟨d, rfl⟩ := hpush i hi
      exact exec_decPush_dcnt d
    obtain ⟨v, hv, -, hagree⟩ := hunit .dec s (agreeOn_refl _ s)
    obtain ⟨v', hv', hcnt⟩ := execSeq_count hcount s s.dcnt.isLt
    obtain rfl : v = v' := Host.Outcome.next.inj (hv.symm.trans hv')
    rw [(agreeOn_dec_iff.mp hagree).2, hcnt, hzero, Fin.val_zero, Nat.zero_add]

end Sys2Proof.Machine
end

section
/-! PROOFS. The functions of layer F group by group (42_encode_pipeline.md R111, 43_decode_pipeline.md R131, R132,
R138): one induction over groups serves them all. -/

namespace Sys2Proof.Machine

/-- What holds of every sequence shorter than a group, and of a group before a sequence of which it holds, holds of
every sequence. -/
theorem group_induction {α : Type} {n : Nat} (hn : 0 < n) {P : List α → Prop} (short : ∀ p, p.length < n → P p)
    (group : ∀ g l, g.length = n → P l → P (g ++ l)) (l : List α) : P l := by
  by_cases hlen : l.length < n
  · exact short l hlen
  · rw [← List.take_append_drop n l]
    exact group _ _ (List.length_take_of_le (by omega)) (group_induction hn short group (l.drop n))
termination_by l.length
decreasing_by
  rw [List.length_drop]
  omega

theorem chunks_of_short {α : Type} {n : Nat} {p : List α} (hne : p ≠ []) (hlen : p.length < n) : chunks n p = [p] := by
  rw [chunks_eq n (by omega) p hne, List.take_of_length_le (by omega), List.drop_of_length_le (by omega), chunks_nil]

/-- Settles O44: the first group splits off, on both sides. -/
theorem encodeWorksGroupByGroup : Obligations.EncodeWorksGroupByGroup := by
  refine group_induction (n := 5) (by decide) (fun p hlen => ?_) fun g b hg ih => ?_
  · by_cases hne : p = []
    · rw [hne]
      rfl
    · rw [encode_of_short hne hlen, chunks_of_short hne hlen, List.flatMap_cons, List.flatMap_nil, List.append_nil]
  · rw [encode_append_group hg, chunks_append 5 (by decide) g b hg, List.flatMap_cons, ih]

/-! ### Decoding a group -/

theorem decg_of_full {g : List CharCode} (hg : g.length = 8) :
    Codec.decg g = .bytes (split5 (pck5Seq (g.map val))) := by
  rw [Codec.decg, hg, pck5Seq_append_zeros]
  rfl

theorem decg_of_decDrop_eq_none {x : List CharCode} (h : Config.decDrop (Fin.ofNat 8 x.length) = none) :
    Codec.decg x = .invalidLength := by
  rw [Codec.decg, h]

theorem decg_of_decDrop_eq_some {x : List CharCode} {drop : Nat}
    (h : Config.decDrop (Fin.ofNat 8 x.length) = some drop) :
    Codec.decg x = .bytes ((split5 (pck5Seq (x.map val))).take (5 - drop)) := by
  rw [Codec.decg, h, pck5Seq_append_zeros]

theorem decode_of_short_eq_decg {x : List CharCode} (hne : x ≠ []) (hlen : x.length < 8) :
    Codec.decode x = Codec.decg x := by
  cases h : Config.decDrop (Fin.ofNat 8 x.length) with
  | none => rw [decode_of_decDrop_eq_none h, decg_of_decDrop_eq_none h]
  | some drop => rw [decode_of_short hne hlen h, decg_of_decDrop_eq_some h]

/-- Settles O48: a full group gives bytes, so the error of the whole is that of the rest. -/
theorem decodeWorksGroupByGroup : Obligations.DecodeWorksGroupByGroup := by
  refine group_induction (n := 8) (by decide) (fun x hlen => ?_) fun g x hg ih => ?_
  · by_cases hne : x = []
    · rw [hne]
      rfl
    · rw [decode_of_short_eq_decg hne hlen, chunks_of_short hne hlen]
      cases h : Codec.decg x <;> simp [h, decodedBytes]
  · rw [decode_append_group hg, chunks_append 8 (by decide) g x hg, List.map_cons, decg_of_full hg, ih]
    by_cases hbad : .invalidLength ∈ (chunks 8 x).map Codec.decg
    · rw [if_pos hbad, if_pos (List.mem_cons_of_mem _ hbad), prependBytes]
    · rw [if_neg hbad, if_neg (by simpa using hbad), prependBytes, List.flatMap_cons, decodedBytes]

/-! ### The length of a decoded text -/

theorem decodable_of_short : ∀ c < 8, c ≠ 1 → c ≠ 4 → c ≠ 6 → ∃ drop,
    Config.decDrop (Fin.ofNat 8 c) = some drop ∧ (c ≠ 0 → 5 - drop = [0, 0, 1, 2, 0, 3, 0, 4].getD c 0) := by
  intro c hc h1 h4 h6
  obtain rfl | rfl | rfl | rfl | rfl : c = 0 ∨ c = 2 ∨ c = 3 ∨ c = 5 ∨ c = 7 := by omega
  all_goals exact ⟨_, rfl, by decide⟩

/-- Five bytes for each full group, and those that are kept of the rest. -/
theorem decode_length (x : List CharCode) (h1 : x.length % 8 ≠ 1) (h4 : x.length % 8 ≠ 4) (h6 : x.length % 8 ≠ 6) :
    ∃ bs : List Byte, Codec.decode x = .bytes bs ∧
      bs.length = 5 * (x.length / 8) + [0, 0, 1, 2, 0, 3, 0, 4].getD (x.length % 8) 0 := by
  induction x using group_induction (n := 8) (by decide) with
  | short x hlen =>
    rw [Nat.mod_eq_of_lt hlen] at h1 h4 h6 ⊢
    rw [Nat.div_eq_of_lt hlen]
    by_cases hne : x = []
    · subst hne
      exact ⟨[], rfl, rfl⟩
    obtain ⟨drop, hdrop, hkept⟩ := decodable_of_short _ hlen h1 h4 h6
    refine ⟨_, decode_of_short hne hlen hdrop, ?_⟩
    rw [List.length_take_of_le (by simp), hkept (by simpa using hne), Nat.mul_zero, Nat.zero_add]
  | group g x hg ih =>
    have hmod : (g ++ x).length % 8 = x.length % 8 := by simp [hg]
    have hdiv : (g ++ x).length / 8 = x.length / 8 + 1 := by rw [List.length_append, hg]; omega
    rw [hmod] at h1 h4 h6 ⊢
    obtain ⟨bs, hdec, hlen⟩ := ih h1 h4 h6
    refine ⟨split5 (pck5Seq (g.map val)) ++ bs, by rw [decode_append_group hg, hdec, prependBytes], ?_⟩
    rw [List.length_append, split5_length, hlen, hdiv]
    omega

/-- Settles O50: the length by groups, for each remainder of the number of characters. -/
theorem decodedLengthFollowsTheDropTable : Obligations.DecodedLengthFollowsTheDropTable := by
  intro x h1 h4 h6
  obtain ⟨bs, hdec, hlen⟩ := decode_length x h1 h4 h6
  refine ⟨bs, hdec, ?_, hlen⟩
  have hlt : x.length % 8 < 8 := Nat.mod_lt _ (by decide)
  rw [hlen]
  generalize hr : x.length % 8 = r at hlt h1 h4 h6 ⊢
  obtain rfl | rfl | rfl | rfl | rfl : r = 0 ∨ r = 2 ∨ r = 3 ∨ r = 5 ∨ r = 7 := by omega
  all_goals simp; omega

/-! ### Decoding sees values -/

theorem decode_congr_val {x x' : List CharCode} (h : x.map val = x'.map val) : Codec.decode x = Codec.decode x' := by
  have hlen : x.length = x'.length := by simpa using congrArg List.length h
  simp only [Codec.decode, h, hlen]

/-- A change of the characters that keeps each one's value keeps the decoding. -/
theorem decode_map_of_val_eq {f : CharCode → CharCode} (hf : ∀ c, val (f c) = val c) (x : List CharCode) :
    Codec.decode (x.map f) = Codec.decode x :=
  decode_congr_val (by rw [List.map_map]; exact List.map_congr_left fun c _ => hf c)

theorem val_replace_unrecognised (c : CharCode) : val (if recognised c then c else 0x41) = val c := by
  have hA : val 0x41 = 0 := by decide
  cases h : recognised c with
  | true => rfl
  | false => exact hA.trans (val_of_not_recognised h).symm

/-- Settles O52: the text enters `decode` by its length and its values only. -/
theorem decodeSeesValuesOnly : Obligations.DecodeSeesValuesOnly :=
  ⟨fun x => ⟨decode_map_of_val_eq val_upper x, decode_map_of_val_eq val_lower x⟩, fun _ _ => decode_congr_val,
    decode_map_of_val_eq val_replace_unrecognised⟩

/-! ### The bits of a last group -/

theorem encg_one (b0 : Byte) : Codec.encg [b0] = [b0.extractLsb' 3 5, b0.extractLsb' 0 3 ++ 0#2].map sym :=
  congrArg (fun fs => (fs.map sym).take 2) (xtr5_join5 b0 0 0 0 0)

theorem encg_two (b0 b1 : Byte) :
    Codec.encg [b0, b1] =
      [b0.extractLsb' 3 5, b0.extractLsb' 0 3 ++ b1.extractLsb' 6 2, b1.extractLsb' 1 5].map sym :=
  congrArg (fun fs => (fs.map sym).take 3) (xtr5_join5 b0 b1 0 0 0)

theorem encg_three (b0 b1 b2 : Byte) :
    Codec.encg [b0, b1, b2] =
      [b0.extractLsb' 3 5, b0.extractLsb' 0 3 ++ b1.extractLsb' 6 2, b1.extractLsb' 1 5,
       b1.extractLsb' 0 1 ++ b2.extractLsb' 4 4, b2.extractLsb' 0 4 ++ 0#1].map sym :=
  congrArg (fun fs => (fs.map sym).take 5) (xtr5_join5 b0 b1 b2 0 0)

theorem encg_four (b0 b1 b2 b3 : Byte) :
    Codec.encg [b0, b1, b2, b3] =
      [b0.extractLsb' 3 5, b0.extractLsb' 0 3 ++ b1.extractLsb' 6 2, b1.extractLsb' 1 5,
       b1.extractLsb' 0 1 ++ b2.extractLsb' 4 4, b2.extractLsb' 0 4 ++ b3.extractLsb' 7 1, b3.extractLsb' 2 5,
       b3.extractLsb' 0 2 ++ 0#3].map sym :=
  congrArg (fun fs => (fs.map sym).take 7) (xtr5_join5 b0 b1 b2 b3 0)

/-- Of the last byte at length 2 modulo 5 only the bits above bit 0 reach the text. -/
theorem encode_concat_congr {x x' : Byte} (hhigh : x.extractLsb' 6 2 = x'.extractLsb' 6 2)
    (hmid : x.extractLsb' 1 5 = x'.extractLsb' 1 5) (p : List Byte) (hp : p.length % 5 = 1) :
    Codec.encode (p ++ [x]) = Codec.encode (p ++ [x']) := by
  induction p using group_induction (n := 5) (by decide) with
  | short p hlen =>
    rw [Nat.mod_eq_of_lt hlen] at hp
    obtain ⟨y, rfl⟩ := List.length_eq_one_iff.mp hp
    rw [List.singleton_append, List.singleton_append, encode_of_short (by simp) (by simp),
      encode_of_short (by simp) (by simp), encg_two, encg_two, hhigh, hmid]
  | group g p hg ih =>
    have hrest : p.length % 5 = 1 := by simpa [hg] using hp
    rw [List.append_assoc, List.append_assoc, encode_append_group hg, encode_append_group hg, ih hrest]

/-- Settles O47: the wiring of the extractor with zero bytes for the missing ones. -/
theorem truncationKeepsTheListedBits : Obligations.TruncationKeepsTheListedBits := by
  have hhigh : ∀ x : Byte, x.extractLsb' 6 2 = (x ^^^ 1).extractLsb' 6 2 := by decide
  have hmid : ∀ x : Byte, x.extractLsb' 1 5 = (x ^^^ 1).extractLsb' 1 5 := by decide
  refine ⟨fun b0 b1 b2 b3 b4 => ⟨encg_one b0, encg_two b0 b1, encg_three b0 b1 b2, encg_four b0 b1 b2 b3,
    encg_of_full rfl, ?_, ?_, ?_, ?_⟩, fun p x hp => encode_concat_congr (hhigh x) (hmid x) p hp⟩
  · exact congrArg (List.drop 2) (xtr5_join5 b0 0 0 0 0)
  · exact congrArg (List.drop 5) (xtr5_join5 b0 b1 b2 0 0)
  · exact congrArg (List.drop 7) (xtr5_join5 b0 b1 b2 b3 0)
  · exact congrArg (List.drop 3) (xtr5_join5 b0 b1 0 0 0)

theorem bytes_take_congr {l l' : List Byte} (h : l = l') (n : Nat) :
    DecodeResult.bytes (l.take n) = .bytes (l'.take n) := by
  rw [h]

theorem decg_three (x0 x1 x2 : CharCode) :
    Codec.decg [x0, x1, x2] =
      .bytes [val x0 ++ (val x1).extractLsb' 2 3, (val x1).extractLsb' 0 2 ++ val x2 ++ 0#1] := by
  have hthree := split5_pck5 (val x0) (val x1) (val x2) 0 0 0 0 0
  exact bytes_take_congr hthree 2

/-- Settles O51: the wiring of the packer with zero fields for the missing ones. -/
theorem decodedGroupsUseTheListedBits : Obligations.DecodedGroupsUseTheListedBits := by
  intro x0 x1 x2 x3 x4 x5 x6 x7
  have htwo := split5_pck5 (val x0) (val x1) 0 0 0 0 0 0
  have hfive := split5_pck5 (val x0) (val x1) (val x2) (val x3) (val x4) 0 0 0
  have hseven := split5_pck5 (val x0) (val x1) (val x2) (val x3) (val x4) (val x5) (val x6) 0
  have height := split5_pck5 (val x0) (val x1) (val x2) (val x3) (val x4) (val x5) (val x6) (val x7)
  exact ⟨bytes_take_congr htwo 1, decg_three x0 x1 x2, bytes_take_congr hfive 3, bytes_take_congr hseven 4,
    (decg_of_full rfl).trans (congrArg DecodeResult.bytes height)⟩

end Sys2Proof.Machine
end

section
/-! PROOFS. Encoding and decoding undo each other up to what truncation loses (42_encode_pipeline.md R119,
43_decode_pipeline.md R141). A partial group of bytes comes back if the kept fields hold all its bits; a partial
group of characters comes back if the kept bytes hold all bits of its fields. -/

namespace Sys2Proof.Machine

/-! ### Decoding an encoded sequence -/

theorem map_val_map_sym (v : List Field) : (v.map sym).map val = v := by
  rw [List.map_map, (funext val_sym : val ∘ sym = id), List.map_id]

theorem take_split5_join5Seq {p : List Byte} (h : p.length ≤ 5) : (split5 (join5Seq p)).take p.length = p := by
  rw [← join5Seq_append_zeros p (5 - p.length), split5_join5Seq (by simp; omega), List.take_left]

theorem take_xtr5_pck5Seq {v : List Field} (h : v.length ≤ 8) : (xtr5 (pck5Seq v)).take v.length = v := by
  rw [← pck5Seq_append_zeros v (8 - v.length), xtr5_pck5Seq (by simp; omega), List.take_left]

/-- Bit 0 of the last byte at length 2 modulo 5, the one bit that no character carries, is zero. -/
def LostBitZero (b : List Byte) : Prop := b.length % 5 = 2 → ∀ y, b.getLast? = some y → y.extractLsb' 0 1 = 0

theorem lostBitZero_append_group {g : List Byte} (hg : g.length = 5) (b : List Byte) :
    LostBitZero (g ++ b) ↔ LostBitZero b := by
  have hmod : (g ++ b).length % 5 = b.length % 5 := by simp [hg]
  rw [LostBitZero, LostBitZero, hmod]
  refine imp_congr_right fun htwo => ?_
  have hne : b ≠ [] := by
    rintro rfl
    simp at htwo
  rw [List.getLast?_append_of_ne_nil _ hne]

/-- What the drop tables keep of a partial group: with `k` characters for `c` bytes, decoding keeps `c` bytes again, and
the `k` fields hold all bits of the bytes but at length 2. -/
theorem encKeep_decDrop : ∀ c < 5, c ≠ 0 →
    Codec.encKeep c ≠ 0 ∧ Codec.encKeep c < 8 ∧ Config.decDrop (Fin.ofNat 8 (Codec.encKeep c)) = some (5 - c) ∧
      (c ≠ 2 → (8 * c + 4) / 5 ≤ Codec.encKeep c) := by decide

theorem encg_eq_map_sym (p : List Byte) :
    Codec.encg p = ((xtr5 (join5Seq p)).take (Codec.encKeep p.length)).map sym := by
  rw [Codec.encg, join5Seq_append_zeros, List.map_take]

/-- The fields of two bytes beyond the kept three hold the lost bit only. -/
theorem pck5Seq_take_xtr5_of_two {b0 b1 : Byte} (h : b1.extractLsb' 0 1 = 0) :
    pck5Seq ((xtr5 (join5Seq [b0, b1])).take 3) = join5Seq [b0, b1] := by
  have hrest : (xtr5 (join5Seq [b0, b1])).drop 3 = zeros 5 5 := by
    refine (congrArg (List.drop 3) (xtr5_join5 b0 b1 0 0 0)).trans ?_
    simp only [List.drop, h]
    rfl
  rw [← pck5Seq_append_zeros _ 5, ← hrest, List.take_append_drop, pck5Seq_xtr5]

/-- The fields that are kept of a partial group hold its bytes, but for the lost bit. -/
theorem take_split5_kept {p : List Byte} (hlen : p.length < 5) (hne : p.length ≠ 0) (hlost : LostBitZero p) :
    (split5 (pck5Seq ((xtr5 (join5Seq p)).take (Codec.encKeep p.length)))).take p.length = p := by
  obtain ⟨-, -, -, hbits⟩ := encKeep_decDrop p.length hlen hne
  conv_rhs => rw [← take_split5_join5Seq hlen.le]
  by_cases htwo : p.length = 2
  · obtain ⟨b0, b1, rfl⟩ := List.length_eq_two.mp htwo
    have hzero : b1.extractLsb' 0 1 = 0 := hlost rfl b1 rfl
    exact congrArg (fun g => (split5 g).take 2) (pck5Seq_take_xtr5_of_two hzero)
  · conv_rhs => rw [← pck5Seq_xtr5 (join5Seq p)]
    exact take_split5_pck5Seq_congr (by rw [List.take_take, Nat.min_eq_left (hbits htwo)])

theorem decode_encode_of_short {p : List Byte} (hlen : p.length < 5) (hlost : LostBitZero p) :
    Codec.decode (Codec.encode p) = .bytes p := by
  by_cases hne : p = []
  · rw [hne]
    rfl
  have hpos : p.length ≠ 0 := mt List.eq_nil_of_length_eq_zero hne
  obtain ⟨hkept, hkeep, hdrop, -⟩ := encKeep_decDrop p.length hlen hpos
  have hcount := encg_length p
  have htext : Codec.encg p ≠ [] := fun h => hkept (hcount.symm.trans (congrArg List.length h))
  have hfive : 5 - (5 - p.length) = p.length := by omega
  rw [encode_of_short hne hlen, decode_of_short htext (hcount ▸ hkeep) (hcount ▸ hdrop), encg_eq_map_sym,
    map_val_map_sym, hfive, take_split5_kept hlen hpos hlost]

/-- Decoding an encoded sequence gives it back, if the one bit that no character carries is zero. -/
theorem decode_encode_bytes {b : List Byte} (hlost : LostBitZero b) : Codec.decode (Codec.encode b) = .bytes b := by
  induction b using group_induction (n := 5) (by decide) with
  | short p hlen => exact decode_encode_of_short hlen hlost
  | group g b hg ih =>
    have htext : (Codec.encg g).length = 8 := by
      rw [encg_length, hg]
      rfl
    rw [encode_append_group hg, decode_append_group htext, ih ((lostBitZero_append_group hg b).mp hlost),
      encg_of_full hg, map_val_map_sym, pck5Seq_xtr5, split5_join5Seq hg, prependBytes]

theorem lostBitZero_concat {y : Byte} (h : y.extractLsb' 0 1 = 0) (p : List Byte) : LostBitZero (p ++ [y]) := by
  intro _ z hz
  rw [List.getLast?_concat] at hz
  rw [← Option.some.inj hz, h]

/-- Settles O53: the text of a sequence whose lost bit is set is that of the sequence with the bit cleared. -/
theorem decodeUndoesEncodeUpToOneBit : Obligations.DecodeUndoesEncodeUpToOneBit := by
  have hhigh : ∀ x : Byte, x.extractLsb' 6 2 = (x &&& 0xFE).extractLsb' 6 2 := by decide
  have hmid : ∀ x : Byte, x.extractLsb' 1 5 = (x &&& 0xFE).extractLsb' 1 5 := by decide
  have hlow : ∀ x : Byte, (x &&& 0xFE).extractLsb' 0 1 = 0 := by decide
  intro b
  refine ⟨fun hlen => decode_encode_bytes fun htwo => absurd htwo hlen, ?_⟩
  rintro p x rfl hlen
  have hp : p.length % 5 = 1 := by
    rw [List.length_append, List.length_singleton] at hlen
    omega
  rw [encode_concat_congr (hhigh x) (hmid x) p hp, decode_encode_bytes (lostBitZero_concat (hlow x) p)]

/-! ### Encoding a decoded text -/

/-- A partial group that decodes has an entry in the drop table, which says how many of its bytes are kept. -/
theorem decode_eq_bytes_of_short {x : List CharCode} {bs : List Byte} (hne : x ≠ []) (hlen : x.length < 8)
    (h : Codec.decode x = .bytes bs) : ∃ drop, Config.decDrop (Fin.ofNat 8 x.length) = some drop ∧
      bs = (split5 (pck5Seq (x.map val))).take (5 - drop) := by
  cases hdrop : Config.decDrop (Fin.ofNat 8 x.length) with
  | none =>
    rw [decode_of_decDrop_eq_none hdrop] at h
    cases h
  | some drop =>
    rw [decode_of_short hne hlen hdrop] at h
    exact ⟨drop, rfl, (DecodeResult.bytes.inj h).symm⟩

/-- The bytes of a full group come before those of the rest. -/
theorem decode_group_eq_bytes {g x : List CharCode} {bs : List Byte} (hg : g.length = 8)
    (h : Codec.decode (g ++ x) = .bytes bs) :
    ∃ bs', Codec.decode x = .bytes bs' ∧ bs = split5 (pck5Seq (g.map val)) ++ bs' := by
  rw [decode_append_group hg] at h
  cases hx : Codec.decode x with
  | invalidLength =>
    rw [hx] at h
    cases h
  | bytes bs' =>
    rw [hx] at h
    exact ⟨bs', rfl, (DecodeResult.bytes.inj h).symm⟩

theorem length_eq_three_of_keeps_two : ∀ c < 8, ∀ drop < 5, Config.decDrop (Fin.ofNat 8 c) = some drop →
    (5 - drop) % 5 = 2 → c = 3 := by decide

/-- The lost bit of what a text decodes to is zero: it is padding. -/
theorem lostBitZero_of_decode_eq {x : List CharCode} {bs : List Byte} (h : Codec.decode x = .bytes bs) :
    LostBitZero bs := by
  induction x using group_induction (n := 8) (by decide) generalizing bs with
  | short x hlen =>
    intro htwo y hy
    by_cases hne : x = []
    · subst hne
      obtain rfl : [] = bs := DecodeResult.bytes.inj h
      cases hy
    obtain ⟨drop, hdrop, hbs⟩ := decode_eq_bytes_of_short hne hlen h
    have hkept : bs.length = 5 - drop := hbs ▸ List.length_take_of_le (Nat.sub_le _ _)
    have hthree := length_eq_three_of_keeps_two x.length hlen drop (Config.drops_fit.2 _ _ hdrop) hdrop (hkept ▸ htwo)
    obtain ⟨x0, x1, x2, rfl⟩ := List.length_eq_three.mp hthree
    rw [decode_of_short_eq_decg hne hlen, decg_three] at h
    obtain rfl := DecodeResult.bytes.inj h
    obtain rfl := Option.some.inj hy
    exact BitVec.extractLsb'_append_eq_right
  | group g x hg ih =>
    obtain ⟨bs', hx, rfl⟩ := decode_group_eq_bytes hg h
    exact (lostBitZero_append_group (split5_length _) bs').mpr (ih hx)

/-- A text is what its fields are encoded to exactly when its characters are symbols of these fields. -/
theorem map_sym_eq_iff (v : List Field) (x : List CharCode) :
    v.map sym = x ↔ (∀ c ∈ x, isSymbol c = true) ∧ v = x.map val := by
  constructor
  · rintro rfl
    exact ⟨fun c => isSymbol_of_mem_map_sym, (map_val_map_sym v).symm⟩
  · rintro ⟨hsym, rfl⟩
    rw [List.map_map]
    exact (List.map_congr_left fun c hc => (sym_val_eq_self_iff c).mpr (hsym c hc)).trans (List.map_id x)

/-- Clearing the low bits of a packed group keeps its fields exactly when those bits are zero. -/
theorem take_xtr5_zeroLow_iff {v : List Field} (hv : v.length ≤ 8) (n : Nat) :
    (xtr5 (zeroLow (pck5Seq v) n)).take v.length = v ↔ LowZero (pck5Seq v) n := by
  constructor
  · intro h b hb
    by_cases hb40 : b < 40
    · rw [pck5Seq_getLsbD v hb40]
      by_cases hk : 7 - b / 5 < v.length
      · have hslot : 35 - 5 * (7 - b / 5) + b % 5 = b := by omega
        have htake := getD_eq_of_take_eq (h.trans (List.take_length (l := v)).symm) hk 0
        rw [← htake, xtr5_getD _ (by omega), fieldOf_getLsbD, hslot, zeroLow_getLsbD, if_pos hb, Bool.and_false]
      · rw [List.getD_eq_default _ _ (by omega)]
        exact BitVec.getLsbD_zero
    · exact BitVec.getLsbD_of_ge _ _ (by omega)
  · intro h
    rw [zeroLow_eq_self h, take_xtr5_pck5Seq hv]

/-- The low bits of a packed partial group, down from its last field, are bits of that field. -/
theorem lowZero_pck5Seq_iff {v : List Field} {n : Nat} (hpos : 0 < v.length) (hv : v.length ≤ 8)
    (hn : 5 * (v.length - 1) + n ≤ 40) :
    LowZero (pck5Seq v) n ↔ ∀ i < n + 5 * v.length - 40, (v.getD (v.length - 1) 0).getLsbD i = false := by
  constructor
  · intro h i hi
    have hslot : 7 - (i + (40 - 5 * v.length)) / 5 = v.length - 1 := by omega
    have hbit : (i + (40 - 5 * v.length)) % 5 = i := by omega
    have hzero := h (i + (40 - 5 * v.length)) (by omega)
    rwa [pck5Seq_getLsbD v (by omega), hslot, hbit] at hzero
  · intro h b hb
    rw [pck5Seq_getLsbD v (by omega)]
    by_cases hlast : b < 40 - 5 * v.length
    · rw [List.getD_eq_default _ _ (by omega)]
      exact BitVec.getLsbD_zero
    · have hslot : 7 - b / 5 = v.length - 1 := by omega
      rw [hslot]
      exact h _ (by omega)

/-- The bits of the last field that no kept byte uses, by the length of the text (43_decode_pipeline.md R141). -/
def ignoredBits (len : Nat) : Field := ([0, 0, 3, 0, 0, 1, 0, 7] : List Field).getD (len % 8) 0

/-- The ignored bits of a text's last field are zero. -/
def IgnoredBitsZero (x : List CharCode) : Prop := ∀ c, x.getLast? = some c → val c &&& ignoredBits x.length = 0

/-- What the drop tables say of `c` characters that decode: to `j` bytes, which encode to `c` characters again, and
whose bits end in the last field. -/
theorem decDrop_encDrop : ∀ c : Fin 8, c ≠ 0 → ∀ drop < 5, Config.decDrop c = some drop →
    ∃ j : Fin 5, j ≠ 0 ∧ 5 - drop = j.val ∧ 8 - Config.encDrop j = c.val ∧ 5 * (c.val - 1) ≤ 8 * j.val := by decide

/-- The ignored bits are those of the last field beyond the `j` bytes that are kept. -/
theorem and_ignoredBits_eq_zero_iff : ∀ j : Fin 5, j ≠ 0 → ∀ f : Field,
    (∀ i < 5 * (8 - Config.encDrop j) - 8 * j.val, f.getLsbD i = false) ↔
      f &&& ignoredBits (8 - Config.encDrop j) = 0 := by decide

theorem ignoredBitsZero_iff {x : List CharCode} (hne : x ≠ []) :
    IgnoredBitsZero x ↔ (x.map val).getD (x.length - 1) 0 &&& ignoredBits x.length = 0 := by
  have hpos := List.length_pos_of_ne_nil hne
  have hlast : (x.map val).getD (x.length - 1) 0 = val (x.getLast hne) := by
    rw [List.getD_eq_getElem _ _ (by simp; omega), List.getElem_map, List.getLast_eq_getElem]
  rw [hlast, IgnoredBitsZero, List.getLast?_eq_some_getLast hne]
  simp

/-- The bits that re-encoding `j` kept bytes clears are the ignored bits. -/
theorem lowZero_iff_ignoredBitsZero {x : List CharCode} {j : Fin 5} (hne : x ≠ []) (hlen : x.length < 8) (hj : j ≠ 0)
    (hback : 8 - Config.encDrop j = x.length) (hcover : 5 * (x.length - 1) ≤ 8 * j.val) :
    LowZero (pck5Seq (x.map val)) (40 - 8 * j.val) ↔ IgnoredBitsZero x := by
  have hcount : (x.map val).length = x.length := List.length_map val
  have hpos := List.length_pos_of_ne_nil hne
  have hrange : 40 - 8 * j.val + 5 * x.length - 40 = 5 * x.length - 8 * j.val := by omega
  have hignored := and_ignoredBits_eq_zero_iff j hj
  rw [hback] at hignored
  rw [lowZero_pck5Seq_iff (by omega) (by omega) (by omega), hcount, hrange, hignored, ignoredBitsZero_iff hne]

/-- A text is canonical (43_decode_pipeline.md R141): symbols only, and no ignored bit set. -/
def Canonical (x : List CharCode) : Prop := (∀ c ∈ x, isSymbol c = true) ∧ IgnoredBitsZero x

theorem encode_eq_iff_canonical_of_short {x : List CharCode} {bs : List Byte} (hlen : x.length < 8)
    (h : Codec.decode x = .bytes bs) : Codec.encode bs = x ↔ Canonical x := by
  by_cases hne : x = []
  · subst hne
    obtain rfl : [] = bs := DecodeResult.bytes.inj h
    exact iff_of_true rfl ⟨nofun, nofun⟩
  have hpos := List.length_pos_of_ne_nil hne
  obtain ⟨drop, hdrop, hbs⟩ := decode_eq_bytes_of_short hne hlen h
  have hlength : (Fin.ofNat 8 x.length).val = x.length := Nat.mod_eq_of_lt hlen
  have hsome : Fin.ofNat 8 x.length ≠ 0 := fun h => hpos.ne' (hlength.symm.trans (congrArg Fin.val h))
  obtain ⟨j, hj, hkeep, hback, hcover⟩ := decDrop_encDrop _ hsome drop (Config.drops_fit.2 _ _ hdrop) hdrop
  rw [hlength] at hback hcover
  rw [hkeep] at hbs
  have hcount : bs.length = j.val := hbs ▸ List.length_take_of_le j.isLt.le
  have hbytes : bs ≠ [] := fun hnil => hj (Fin.ext (hcount.symm.trans (congrArg List.length hnil)))
  have htext : Codec.encode bs =
      ((xtr5 (padBytes (pck5Seq (x.map val)) j)).take x.length).map sym := by
    rw [encode_of_short hbytes (hcount ▸ j.isLt), hbs, ← take_xtr5_padBytes_eq_encg (holdsBytes_take_split5 _ j),
      hback, List.map_take]
  have hfields := take_xtr5_zeroLow_iff (v := x.map val) (by simpa using hlen.le) (40 - 8 * j.val)
  rw [List.length_map] at hfields
  rw [htext, map_sym_eq_iff, padBytes, hfields, lowZero_iff_ignoredBitsZero hne hlen hj hback hcover, Canonical]

theorem canonical_append_group {g : List CharCode} (hg : g.length = 8) (x : List CharCode) :
    Canonical (g ++ x) ↔ (∀ c ∈ g, isSymbol c = true) ∧ Canonical x := by
  have hignored : IgnoredBitsZero (g ++ x) ↔ IgnoredBitsZero x := by
    by_cases hne : x = []
    · subst hne
      have hnone : ignoredBits (g ++ []).length = 0 := by
        rw [List.append_nil, hg]
        rfl
      exact iff_of_true (fun c _ => hnone.symm ▸ BitVec.and_zero) nofun
    · have hmod : ignoredBits (g ++ x).length = ignoredBits x.length := by simp [ignoredBits, hg]
      rw [IgnoredBitsZero, IgnoredBitsZero, List.getLast?_append_of_ne_nil _ hne, hmod]
  rw [Canonical, Canonical, hignored, List.forall_mem_append, and_assoc]

theorem encode_eq_iff_canonical {x : List CharCode} {bs : List Byte} (h : Codec.decode x = .bytes bs) :
    Codec.encode bs = x ↔ Canonical x := by
  induction x using group_induction (n := 8) (by decide) generalizing bs with
  | short x hlen => exact encode_eq_iff_canonical_of_short hlen h
  | group g x hg ih =>
    obtain ⟨bs', hx, rfl⟩ := decode_group_eq_bytes hg h
    have hfull : Codec.encg (split5 (pck5Seq (g.map val))) = (g.map val).map sym := by
      rw [encg_of_full (split5_length _), join5Seq_split5, xtr5_pck5Seq (by simpa using hg)]
    rw [encode_append_group (split5_length _), hfull, canonical_append_group hg, ← ih hx]
    have hparts : (g.map val).map sym ++ Codec.encode bs' = g ++ x ↔
        (g.map val).map sym = g ∧ Codec.encode bs' = x :=
      ⟨fun h => List.append_inj h (by simp), fun h => congrArg₂ _ h.1 h.2⟩
    rw [hparts, map_sym_eq_iff, and_iff_left rfl]

/-- Settles O54: by groups, of which only the last can have ignored bits; and no decoded sequence has a lost bit. -/
theorem encodeUndoesDecodeOnCanonicalTextOnly : Obligations.EncodeUndoesDecodeOnCanonicalTextOnly :=
  fun _ _ h => ⟨encode_eq_iff_canonical h, decode_encode_bytes (lostBitZero_of_decode_eq h)⟩

end Sys2Proof.Machine
end

section
/-! PROOFS. Whole messages (42_encode_pipeline.md R118, R121; 43_decode_pipeline.md R139, R140, R142): what each command
of a message answers, from an idle unit, with the other unit's commands between or not; and messages one after the
other. -/

namespace Sys2Proof.Machine

/-! ### Sequences of messages -/

/-- Messages that each start and end at an idle unit are answered one by one. -/
theorem execSeq_messages {α β : Type} {idle : State → Prop} {commands : α → List Instr} {result : List Response → β}
    {spec : α → β}
    (hmessage : ∀ m s, idle s → ∃ (t : State) (rs : List Response), execSeq (commands m) s = .next t ∧
      t.inputs = s.inputs ∧ t.responses = s.responses ++ rs ∧ idle t ∧ rs.length = (commands m).length ∧
      result rs = spec m)
    (ms : List α) (s : State) (hidle : idle s) : ∃ (t : State) (rss : List (List Response)),
      execSeq (ms.flatMap commands) s = .next t ∧ t.inputs = s.inputs ∧ t.responses = s.responses ++ rss.flatten ∧
      idle t ∧ rss.map List.length = ms.map (fun m => (commands m).length) ∧ rss.map result = ms.map spec := by
  induction ms generalizing s with
  | nil => exact ⟨s, [], rfl, rfl, (List.append_nil _).symm, hidle, rfl, rfl⟩
  | cons m ms ih =>
    obtain ⟨u, rs, hseq, hin, hresp, hu, hlen, hres⟩ := hmessage m s hidle
    obtain ⟨t, rss, hseqs, hins, hresps, ht, hlens, hress⟩ := ih u hu
    refine ⟨t, rs :: rss, ?_, hins.trans hin, ?_, ht, ?_, ?_⟩
    · rw [List.flatMap_cons, execSeq_append_of_next _ _ hseq, hseqs]
    · rw [hresps, hresp, List.flatten_cons, List.append_assoc]
    · rw [List.map_cons, List.map_cons, hlen, hlens]
    · rw [List.map_cons, List.map_cons, hres, hress]

theorem holdsBytes_of_encIdle {s : State} (h : s.encIdle) : HoldsBytes s.eacc s.ecnt [] :=
  h.1 ▸ holdsBytes_nil _

theorem holdsFields_of_decIdle {s : State} (h : s.decIdle) :
    HoldsFields s.dacc s.dcnt (([] : List CharCode).map val) :=
  h.1 ▸ holdsFields_nil _

/-- Settles O15: each message is answered by the lanes of its text and leaves the unit idle for the next. -/
theorem encodeMessagesAreIndependent : Obligations.EncodeMessagesAreIndependent := by
  intro ms rest s hidle hpres
  have hmessage (b : List Byte) (s : State) (h : s.encIdle) : ∃ (t : State) (rs : List Response),
      execSeq (encodeCommands b) s = .next t ∧ t.inputs = s.inputs ∧ t.responses = s.responses ++ rs ∧ t.encIdle ∧
      rs.length = (encodeCommands b).length ∧ lanesOf rs = Codec.encode b := by
    obtain ⟨rs, hseq, hlen, -, hlanes⟩ := execSeq_encodeCommands_of_holds b (holdsBytes_of_encIdle h)
    exact ⟨_, rs, hseq, rfl, rfl, ⟨rfl, rfl⟩, hlen.trans (encodeCommands_length b).symm, hlanes⟩
  obtain ⟨t, rss, hseq, hin, hresp, ht, hlens, hlanes⟩ :=
    execSeq_messages hmessage ms { s with inputs := rest } hidle
  simp only [encodeCommands_length] at hlens
  exact ⟨t, rss, (run_presents hpres).trans hseq, hin, hresp, ht, hlens, hlanes⟩

/-- Settles O20: each message is answered by the result of its text, and an error too leaves the unit idle. -/
theorem decodeMessagesAreIndependent : Obligations.DecodeMessagesAreIndependent := by
  intro ms rest s hidle hpres
  have hmessage (x : List CharCode) (s : State) (h : s.decIdle) : ∃ (t : State) (rs : List Response),
      execSeq (decodeCommands x) s = .next t ∧ t.inputs = s.inputs ∧ t.responses = s.responses ++ rs ∧ t.decIdle ∧
      rs.length = (decodeCommands x).length ∧ decodeMessage rs = Codec.decode x := by
    obtain ⟨rs, hseq, hlen, hresult⟩ := execSeq_decodeCommands_of_holds x (holdsFields_of_decIdle h)
    exact ⟨_, rs, hseq, rfl, rfl, ⟨rfl, rfl⟩, hlen.trans (decodeCommands_length x).symm, hresult⟩
  obtain ⟨t, rss, hseq, hin, hresp, ht, hlens, hresults⟩ :=
    execSeq_messages hmessage ms { s with inputs := rest } hidle
  simp only [decodeCommands_length] at hlens
  exact ⟨t, rss, (run_presents hpres).trans hseq, hin, hresp, ht, hlens, hresults⟩

/-! ### The response to each command of an encode message -/

/-- The items that push number `n` of message `m` answers (42_encode_pipeline.md R118): a full group at each fifth. -/
def pushItems (m : List Byte) (n : Nat) : List CharCode :=
  if (n + 1) % 5 = 0 then Codec.encg ((m.drop (5 * (n / 5))).take 5) else []

/-- The bytes of a message after its full groups. -/
def partialGroup (m : List Byte) : List Byte := m.drop (5 * (m.length / 5))

theorem drop_groups_append_group {g : List Byte} (hg : g.length = 5) (m : List Byte) (q : Nat) :
    (g ++ m).drop (5 * (q + 1)) = m.drop (5 * q) := by
  rw [List.drop_append, hg, List.drop_of_length_le (by omega), List.nil_append, Nat.mul_succ, Nat.add_sub_cancel]

theorem pushItems_append_group {g : List Byte} (hg : g.length = 5) (m : List Byte) (n : Nat) :
    pushItems (g ++ m) (n + 5) = pushItems m n := by
  have hdiv : (n + 5) / 5 = n / 5 + 1 := by omega
  have hmod : (n + 5 + 1) % 5 = (n + 1) % 5 := by omega
  rw [pushItems, pushItems, hdiv, hmod, drop_groups_append_group hg]

theorem partialGroup_append_group {g : List Byte} (hg : g.length = 5) (m : List Byte) :
    partialGroup (g ++ m) = partialGroup m := by
  have hdiv : (g ++ m).length / 5 = m.length / 5 + 1 := by
    rw [List.length_append, hg]
    omega
  rw [partialGroup, hdiv, drop_groups_append_group hg, partialGroup]

theorem partialGroup_of_short {p : List Byte} (h : p.length < 5) : partialGroup p = p := by
  rw [partialGroup, Nat.div_eq_of_lt h]
  rfl

theorem encode_partialGroup (m : List Byte) :
    Codec.encode (partialGroup m) = if m.length % 5 = 0 then [] else Codec.encg (m.drop (5 * (m.length / 5))) := by
  have hlen : (partialGroup m).length = m.length % 5 := by
    rw [partialGroup, List.length_drop]
    omega
  split
  case isTrue hzero =>
    rw [List.eq_nil_of_length_eq_zero (hlen.trans hzero)]
    rfl
  case isFalse hne =>
    exact encode_of_short (fun h => hne (hlen.symm.trans (congrArg List.length h))) (by omega)

theorem pushItems_length_le (m : List Byte) (n : Nat) : (pushItems m n).length ≤ 8 := by
  unfold pushItems
  split
  · rw [encg_length]
    exact Nat.sub_le _ _
  · exact Nat.zero_le _

/-- A push of byte `x` of a message, `p` held before it and `b` to come, answers the items of its number; the message
from the bytes then held is the same one, or the same less its first group. -/
theorem exec_encPush_pushItems {s : State} {p : List Byte} (h : HoldsBytes s.eacc s.ecnt p) (x : Byte) (b : List Byte) :
    ∃ (g : Group) (c : Fin 5) (p' : List Byte),
      exec (.encPush x) s = .next (answer false (pushItems (p ++ x :: b) p.length) (setEnc g c s)) ∧
      HoldsBytes g c p' ∧ partialGroup (p' ++ b) = partialGroup (p ++ x :: b) ∧
      ∀ k, pushItems (p' ++ b) (p'.length + k) = pushItems (p ++ x :: b) (p.length + (k + 1)) := by
  rw [List.append_cons]
  by_cases hc : s.ecnt.val < 4
  · have hnone : pushItems (p ++ [x] ++ b) p.length = [] := if_neg (by have := h.1; omega)
    rw [hnone]
    refine ⟨_, _, p ++ [x], exec_encPush_of_lt x hc, holdsBytes_putByte h hc x, rfl, fun k => ?_⟩
    rw [List.length_append, List.length_singleton, Nat.add_assoc, Nat.add_comm 1]
  · have hlen : p.length = 4 := by
      have := s.ecnt.isLt
      have := h.1
      omega
    have hfull : (p ++ [x]).length = 5 := by simp [hlen]
    have hitems : pushItems (p ++ [x] ++ b) p.length = (xtr5 (putByte s.eacc s.ecnt x)).map sym := by
      rw [putByte_eq_join5Seq h hlen, ← encg_of_full hfull, hlen]
      exact congrArg Codec.encg (List.take_left' hfull)
    rw [hitems]
    refine ⟨0, 0, [], exec_encPush_of_not_lt x hc, holdsBytes_nil 0,
      (partialGroup_append_group hfull b).symm, fun k => ?_⟩
    have hnext : p.length + (k + 1) = 0 + k + 5 := by omega
    rw [hnext, pushItems_append_group hfull]
    rfl

/-- Of a message of which `p` is held and `b` is still to push, each push and the END answer their own items. -/
theorem execSeq_encodeCommands_items (b : List Byte) {s : State} {p : List Byte} (h : HoldsBytes s.eacc s.ecnt p) :
    ∃ rs : List Response,
      execSeq (encodeCommands b) s = .next { s with eacc := 0, ecnt := 0, responses := s.responses ++ rs } ∧
      (∀ k < b.length, (rs[k]?).map Response.items = some (pushItems (p ++ b) (p.length + k))) ∧
      (rs[b.length]?).map Response.items = some (Codec.encode (partialGroup (p ++ b))) := by
  induction b generalizing s p with
  | nil =>
    have hshort : p.length < 5 := h.1 ▸ s.ecnt.isLt
    refine ⟨[respond false (Codec.encode p)], execSeq_cons_of_next _ (exec_encEnd_of_holds h 0), nofun, ?_⟩
    rw [List.append_nil, partialGroup_of_short hshort]
    exact congrArg some (respond_items false _ (encode_length_le_of_short hshort))
  | cons x b ih =>
    obtain ⟨g, c, p', hexec, hholds, hgroup, hshift⟩ := exec_encPush_pushItems h x b
    obtain ⟨rs, hrun, hpushes, hend⟩ :=
      ih (s := answer false (pushItems (p ++ x :: b) p.length) (setEnc g c s)) hholds
    refine ⟨respond false (pushItems (p ++ x :: b) p.length) :: rs, ?_, fun k hk => ?_, hgroup ▸ hend⟩
    · rw [encodeCommands, List.map_cons, List.cons_append, execSeq_cons_of_next _ hexec]
      refine hrun.trans ?_
      simp [answer, setEnc]
    · cases k with
      | zero => exact congrArg some (respond_items false _ (pushItems_length_le _ _))
      | succ k =>
        rw [List.getElem?_cons_succ, hpushes k (Nat.lt_of_succ_lt_succ hk), hshift]

/-- The last command of a sequence can be exchanged for one that is executed alike. -/
theorem execSeq_concat_congr {i j : Instr} (h : ∀ s, exec i s = exec j s) (cs : List Instr) (s : State) :
    execSeq (cs ++ [i]) s = execSeq (cs ++ [j]) s := by
  obtain ⟨t, rs, hseq, -⟩ := execSeq_answers cs s
  rw [execSeq_append_of_next _ _ hseq, execSeq_append_of_next _ _ hseq, execSeq, execSeq, h]

/-- A run in which the commands of unit `u` are known: their responses are those of the commands alone. -/
theorem run_of_unitCommands {u : Which} {cs : List Instr} {rest : List Input} {s t' : State} {rs' : List Response}
    (hpres : s.presents cs rest) (hseq' : execSeq (unitCommands u cs) { s with inputs := rest } = .next t')
    (hresp' : t'.responses = s.responses ++ rs') : ∃ (t : State) (rs : List Response),
      Sys2Proof.core.run cs.length s = .next t ∧ t.inputs = rest ∧ rs.length = cs.length ∧
      t.responses = s.responses ++ rs ∧ unitResponses u cs rs = rs' ∧ t.AgreeOn u t' := by
  obtain ⟨t, rs, hseq, hlen, hresp, hin, hunit⟩ := execSeq_unitCommands cs { s with inputs := rest }
  obtain ⟨t'', hseq'', hresp'', hagree⟩ := hunit u _ (agreeOn_refl u _)
  obtain rfl : t'' = t' := Host.Outcome.next.inj (hseq''.symm.trans hseq')
  exact ⟨t, rs, (run_presents hpres).trans hseq, hin, hlen, hresp,
    List.append_cancel_left (hresp''.symm.trans hresp'), hagree⟩

/-- Settles O14: the ENC commands alone are the message, whose responses carry `encode b` as a whole and each push
its own items. -/
theorem encoderCommandsComputeEncode : Obligations.EncoderCommandsComputeEncode := by
  intro b d cs rest s hidle hcs hpres
  have hholds := holdsBytes_of_encIdle (s := { s with inputs := rest }) hidle
  obtain ⟨rs₁, hmessage, hlen₁, herr, hlanes⟩ := execSeq_encodeCommands_of_holds b hholds
  obtain ⟨rs₂, hmessage₂, hpushes, hend⟩ := execSeq_encodeCommands_items b hholds
  obtain rfl : rs₁ = rs₂ :=
    List.append_cancel_left (congrArg State.responses (Host.Outcome.next.inj (hmessage.symm.trans hmessage₂)))
  rw [encodeCommands, execSeq_concat_congr (exec_encEnd_data 0 d), ← hcs] at hmessage
  obtain ⟨t, rs, hrun, hin, hlen, hresp, rfl, hagree⟩ := run_of_unitCommands hpres hmessage rfl
  obtain ⟨hacc, hcnt⟩ := agreeOn_enc_iff.mp hagree
  refine ⟨t, rs, hrun, hin, hlen, hresp, ⟨hcnt, hacc⟩, herr, hlanes, hlen₁, fun k hk => ?_, ?_⟩
  · have hitems := hpushes k hk
    rwa [List.nil_append, List.length_nil, Nat.zero_add] at hitems
  · rwa [List.nil_append, encode_partialGroup] at hend

/-! ### The response to each command of a decode message -/

/-- Every response of a sequence was given by its own command, in some state. -/
theorem execSeq_response {cs : List Instr} {s t : State} {rs : List Response} (hseq : execSeq cs s = .next t)
    (hresp : t.responses = s.responses ++ rs) {k : Nat} {i : Instr} (hk : cs[k]? = some i) :
    ∃ (u v : State) (r : Response), exec i u = .next v ∧ v.responses = u.responses ++ [r] ∧ rs[k]? = some r := by
  induction cs generalizing s rs k with
  | nil => cases hk
  | cons j cs ih =>
    obtain ⟨v, r, hexec, hv, -⟩ := exec_answers j s
    obtain ⟨t', rs', hseq', -, hresp', -⟩ := execSeq_answers cs v
    rw [execSeq_cons_of_next cs hexec] at hseq
    obtain rfl := Host.Outcome.next.inj (hseq'.symm.trans hseq)
    have hsplit : s.responses ++ r :: rs' = s.responses ++ rs := by rw [← hresp, hresp', hv, List.append_cons]
    obtain rfl := List.append_cancel_left hsplit
    cases k with
    | zero =>
      obtain rfl := Option.some.inj hk
      exact ⟨s, v, r, hexec, hv, rfl⟩
    | succ k => exact ih hseq hresp' hk

theorem err_of_exec_decPush {d : CharCode} {s t : State} {r : Response} (hexec : exec (.decPush d) s = .next t)
    (hresp : t.responses = s.responses ++ [r]) : r.err = false := by
  have hno : ¬ RaisesInvalidLength (.decPush d) s := by
    rintro ⟨⟨e, he⟩, -⟩
    cases he
  obtain ⟨t', items, hexec', hresp'⟩ := exec_of_not_raises hno
  obtain rfl := Host.Outcome.next.inj (hexec'.symm.trans hexec)
  obtain rfl : respond false items = r := by simpa using hresp'.symm.trans hresp
  rfl

theorem lastErr_eq_of_length {rs : List Response} {n : Nat} (h : rs.length = n + 1) :
    (rs[n]?).map (fun r => r.err) = some (lastErr rs) := by
  have hlast : rs.getLast? = rs[n]? := by rw [List.getLast?_eq_getElem?, h, Nat.add_sub_cancel]
  have hsome : rs[n]? = some rs[n] := List.getElem?_eq_getElem (by omega)
  rw [lastErr, hlast, hsome]
  rfl

theorem lastErr_eq_decide {rs : List Response} {x : List CharCode} (h : decodeMessage rs = Codec.decode x) :
    lastErr rs = decide (x.length % 8 = 1 ∨ x.length % 8 = 4 ∨ x.length % 8 = 6) := by
  rw [Bool.eq_iff_iff, decide_eq_true_iff, ← decodeMessage_eq_invalidLength_iff, h]
  exact decodeFailsExactlyOnThreeLengths.1 x

/-- Settles O18: the DEC commands alone are the message; no push has the cause of the error, and the END has it where
`decode` fails. -/
theorem decoderCommandsComputeDecode : Obligations.DecoderCommandsComputeDecode := by
  intro x d cs rest s hidle hcs hpres
  obtain ⟨rs₁, hmessage, hlen₁, hresult⟩ :=
    execSeq_decodeCommands_of_holds x (holdsFields_of_decIdle (s := { s with inputs := rest }) hidle)
  have hpushes (k : Nat) (hk : k < x.length) : (rs₁[k]?).map (fun r => r.err) = some false := by
    have hcommand : (decodeCommands x)[k]? = some (.decPush x[k]) := by
      rw [decodeCommands, List.getElem?_append_left (by simpa using hk), List.getElem?_map, List.getElem?_eq_getElem hk,
        Option.map_some]
    obtain ⟨u, v, r, hexec, hv, hr⟩ := execSeq_response hmessage rfl hcommand
    rw [hr, Option.map_some, err_of_exec_decPush hexec hv]
  rw [decodeCommands, execSeq_concat_congr (exec_decEnd_data 0 d), ← hcs] at hmessage
  obtain ⟨t, rs, hrun, hin, hlen, hresp, rfl, hagree⟩ := run_of_unitCommands hpres hmessage rfl
  obtain ⟨hacc, hcnt⟩ := agreeOn_dec_iff.mp hagree
  refine ⟨t, rs, hrun, hin, hlen, hresp, ⟨hcnt, hacc⟩, hlen₁, hpushes, ?_, hresult⟩
  rw [lastErr_eq_of_length hlen₁, lastErr_eq_decide (x := x) hresult]

/-! ### Bytes before an error -/

/-- The characters of a text that are in full groups. -/
def fullGroups (x : List CharCode) : List CharCode := x.take (8 * (x.length / 8))

theorem fullGroups_append_group {g : List CharCode} (hg : g.length = 8) (x : List CharCode) :
    fullGroups (g ++ x) = g ++ fullGroups x := by
  have hcount : 8 * ((g ++ x).length / 8) = g.length + 8 * (x.length / 8) := by
    rw [List.length_append, hg]
    omega
  rw [fullGroups, hcount, List.take_length_add_append, fullGroups]

theorem fullGroups_of_short {x : List CharCode} (h : x.length < 8) : fullGroups x = [] := by
  rw [fullGroups, Nat.div_eq_of_lt h]
  rfl

/-- A push answers what it completes of the full groups. -/
theorem exec_decPush_fullGroups {s : State} {x : List CharCode} (h : HoldsFields s.dacc s.dcnt (x.map val))
    (d : CharCode) (y : List CharCode) :
    ∃ (items : List Byte) (g : Group) (c : Fin 8) (x' : List CharCode),
      exec (.decPush d) s = .next (answer false items (setDec g c s)) ∧ items.length ≤ 8 ∧
      HoldsFields g c (x'.map val) ∧ (x' ++ y).length % 8 = (x ++ d :: y).length % 8 ∧
      Codec.decode (fullGroups (x ++ d :: y)) = prependBytes items (Codec.decode (fullGroups (x' ++ y))) := by
  rw [List.append_cons]
  by_cases hc : s.dcnt.val < 7
  · refine ⟨[], _, _, x ++ [d], exec_decPush_of_lt d hc, by simp, ?_, rfl, (prependBytes_nil _).symm⟩
    rw [List.map_append]
    exact holdsFields_putField h hc (val d)
  · have hlen : (x.map val).length = 7 := by
      have := s.dcnt.isLt
      have := h.1
      omega
    have hfull : (x ++ [d]).length = 8 := by simpa using hlen
    refine ⟨_, 0, 0, [], exec_decPush_of_not_lt d hc, by simp, holdsFields_nil 0, ?_, ?_⟩
    · rw [List.nil_append, List.length_append (as := x ++ [d]), hfull, Nat.add_mod_left]
    · rw [fullGroups_append_group hfull, decode_append_group hfull, List.map_append, putField_eq_pck5Seq h hlen]
      rfl

/-- The lanes of a message that fails are the decoding of its full groups. -/
theorem execSeq_decodeCommands_lanes (y : List CharCode) {s : State} {x : List CharCode}
    (h : HoldsFields s.dacc s.dcnt (x.map val))
    (hbad : (x ++ y).length % 8 = 1 ∨ (x ++ y).length % 8 = 4 ∨ (x ++ y).length % 8 = 6) :
    ∃ rs : List Response,
      execSeq (decodeCommands y) s = .next { s with dacc := 0, dcnt := 0, responses := s.responses ++ rs } ∧
      Codec.decode (fullGroups (x ++ y)) = .bytes (lanesOf rs) := by
  induction y generalizing s x with
  | nil =>
    have hcnt : s.dcnt.val = x.length := by simpa using h.1
    have hshort : x.length < 8 := hcnt ▸ s.dcnt.isLt
    rw [List.append_nil] at hbad ⊢
    refine ⟨[respond true []], execSeq_cons_of_next _ (exec_decEnd_of_undecodable 0 (by omega)), ?_⟩
    rw [fullGroups_of_short hshort]
    rfl
  | cons d y ih =>
    obtain ⟨items, g, c, x', hexec, hitems, hholds, hmod, hdecode⟩ := exec_decPush_fullGroups h d y
    obtain ⟨rs, hrun, hlanes⟩ := ih (s := answer false items (setDec g c s)) hholds (by rwa [hmod])
    refine ⟨respond false items :: rs, ?_, ?_⟩
    · rw [decodeCommands, List.map_cons, List.cons_append, execSeq_cons_of_next _ hexec]
      refine hrun.trans ?_
      simp [answer, setDec]
    · rw [hdecode, hlanes, lanesOf_cons, respond_items _ _ hitems, prependBytes]

theorem fullGroups_length (x : List CharCode) : (fullGroups x).length = 8 * (x.length / 8) :=
  List.length_take_of_le (Nat.mul_div_le _ _)

/-- Settles O19: the lanes are those of the full groups, and the last response makes the whole the error. -/
theorem bytesBeforeAnErrorAreTheFullGroups : Obligations.BytesBeforeAnErrorAreTheFullGroups := by
  intro x rest s hidle hpres hbad
  have hholds := holdsFields_of_decIdle (s := { s with inputs := rest }) hidle
  obtain ⟨rs, hseq, hlen, hresult⟩ := execSeq_decodeCommands_of_holds x hholds
  obtain ⟨rs', hseq', hlanes⟩ := execSeq_decodeCommands_lanes x hholds hbad
  obtain rfl : rs = rs' :=
    List.append_cancel_left (congrArg State.responses (Host.Outcome.next.inj (hseq.symm.trans hseq')))
  have hrun := run_presents hpres
  rw [decodeCommands_length] at hrun
  have hfail := (decodeFailsExactlyOnThreeLengths.1 x).mpr hbad
  have hfull := fullGroups_length x
  obtain ⟨bs, hbytes, hcount⟩ := decode_length (fullGroups x) (by omega) (by omega) (by omega)
  obtain rfl : lanesOf rs = bs := DecodeResult.bytes.inj (hlanes.symm.trans hbytes)
  refine ⟨_, rs, hrun.trans hseq, hlen, rfl, hlanes, ?_, hresult.trans hfail, hfail⟩
  rw [hcount, hfull, Nat.mul_mod_right, Nat.mul_div_cancel_left _ (by decide)]
  rfl

end Sys2Proof.Machine
end
